-- ==== Sys2Proof/Word.lean ====
section
/-! DEFINITION. The word types of the block whose widths the source or the encoding fixes (00_scope.md R7, R11;
10_state.md R24; 30_encoding.md R70). The metrics' width is a parameter: `Params.Metric` in Config.lean. Everything that
computes on words stands in Machine/. -/

namespace Sys2Proof

/-- A command word or a response word as it crosses a port (30_encoding.md R70, R73). -/
abbrev Word64 := BitVec 64

/-- An unsigned confidence value in [0, 65535] (00_scope.md R15, SOFT_W = 16). -/
abbrev SoftBit := BitVec 16

/-- One history word: bit s is the decision bit of successor state s (10_state.md R24). -/
abbrev HistWord := BitVec 16

end Sys2Proof
end

