-- ==== Sys2Proof/Config.lean ====
section
/-! DEFINITION. What is fixed when the hardware is built: the parameters of 00_scope.md R7 as one record that every
definition takes as its argument `cfg`, the constraints of R8, the spec's defaults (log 3), and the free values that stand
for unspecified buffer contents (log 1). -/

namespace Sys2Proof

/-- One entry of the trellis ROM: the two ideal coded-bit values, each 0 or 65535 (41_trellis_rom.md R120, kept by
`Params.RomIsIdeal`). -/
structure RomEntry where
  ideal0 : SoftBit
  ideal1 : SoftBit
  deriving DecidableEq, Repr

/-- The parameters a model takes as named arguments (00_scope.md R7). K, NUM_STATES, NUM_HALF, SOFT_W and SOFT_MAX are
fixed by the source and stand in the types and below; MAX_LEN, IBUF_DEPTH and OBUF_BYTES are derived below. -/
structure Params where
  /-- HIST_LEN, history capacity in trellis steps. -/
  histLen : Nat
  /-- MAXDIST, the branch-metric complement constant. -/
  maxDist : Nat
  /-- INIT_SENTINEL, the initial metric of states 1..15. -/
  initSentinel : Nat
  /-- METRIC_W, the width of a path metric and of a cost. -/
  metricW : Nat
  /-- FAIL_COST, the VAL of a rejected command. -/
  failCost : Nat
  /-- ERASURE, the SoftBit value of an omitted position. -/
  erasure : Nat
  /-- PBUF_DEPTH, entries of the puncture-pattern buffer. Below 255 a DECP can name entries that do not exist (log 15). -/
  pbufDepth : Nat
  /-- SAMPLE_W, the width of a slicer sample. -/
  sampleW : Nat
  /-- SAMPLE_FRAC, the fractional bits of a slicer sample. -/
  sampleFrac : Nat
  /-- L0, the least of the slicer's nominal levels, in sample LSBs. -/
  level0 : Int
  /-- L1. -/
  level1 : Int
  /-- L2. -/
  level2 : Int
  /-- L3, the greatest. -/
  level3 : Int
  /-- TRELLIS_ROM, the ideal output pairs of the eight half-states. -/
  trellisRom : Vector RomEntry 8
  deriving DecidableEq, Repr

/-- A path metric or a cost: METRIC_W bits, unsigned (R7, 10_state.md R20). -/
abbrev Params.Metric (cfg : Params) := BitVec cfg.metricW

/-- A value of a `w`-bit two's-complement number (R8c, 30_encoding.md R75). -/
abbrev FitsSigned (w : Nat) (v : Int) : Prop := -2 ^ (w - 1) ≤ v ∧ v < 2 ^ (w - 1)

/-- K, the constraint length (fixed, R7). -/
def Config.constraintLength : Nat := 5

/-- SOFT_MAX, the upper ideal SoftBit value (fixed, R7). -/
def Config.softMax : Nat := 65535

namespace Params

/-- MAX_LEN = 2 × HIST_LEN, the largest soft-bit count a decode accepts (R7). -/
def maxLen (cfg : Params) : Nat := 2 * cfg.histLen

/-- IBUF_DEPTH = MAX_LEN (R7, 92 D23). -/
def ibufDepth (cfg : Params) : Nat := cfg.maxLen

/-- OBUF_BYTES = ceil((HIST_LEN + 4) / 8) (R7, 92 D23). -/
def obufBytes (cfg : Params) : Nat := (cfg.histLen + (Config.constraintLength - 1) + 7) / 8

/-- INIT_SENTINEL as a metric. -/
def sentinel (cfg : Params) : cfg.Metric := BitVec.ofNat cfg.metricW cfg.initSentinel

/-- FAIL_COST as the VAL of a response (30_encoding.md R73). -/
def failVal (cfg : Params) : BitVec 32 := BitVec.ofNat 32 cfg.failCost

/-- ERASURE as a soft bit. R7 fixes it at 32767; above 65535 it is taken modulo 2^16 (log 15). -/
def erasureBit (cfg : Params) : SoftBit := BitVec.ofNat 16 cfg.erasure

/-- The constraints (a) to (d) that a configuration must meet (00_scope.md R8), METRIC_W holding FAIL_COST. -/
abbrev MeetsR8 (cfg : Params) : Prop :=
  cfg.histLen * cfg.maxDist < cfg.initSentinel ∧
  (cfg.initSentinel + cfg.histLen * cfg.maxDist < cfg.failCost ∧ cfg.failCost < 2 ^ cfg.metricW) ∧
  (cfg.level0 < cfg.level1 ∧ cfg.level1 < cfg.level2 ∧ cfg.level2 < cfg.level3 ∧
    FitsSigned cfg.sampleW cfg.level0 ∧ FitsSigned cfg.sampleW cfg.level3) ∧
  cfg.maxLen ≤ 65535

/-- The widths fit the fields that carry them: a metric the 32-bit VAL, a sample the 16-bit X (30_encoding.md R70, R73).
DEDUCED (log 14). -/
abbrev FitsFields (cfg : Params) : Prop := cfg.metricW ≤ 32 ∧ 1 ≤ cfg.sampleW ∧ cfg.sampleW ≤ 16

/-- Every value of TRELLIS_ROM is 0 or 65535 (41_trellis_rom.md R120). -/
abbrev RomIsIdeal (cfg : Params) : Prop :=
  ∀ e ∈ cfg.trellisRom.toList,
    (e.ideal0 = 0 ∨ e.ideal0 = 65535) ∧ (e.ideal1 = 0 ∨ e.ideal1 = 65535)

/-- A configuration that a block can be built with. R8's list has neither the limits of the fields (log 14) nor the range
of the ROM's values, which R120 states; that both are checked here is DEDUCED (log 14, log 16). DESIGN CHOICE (log 15): R8
bounds neither PBUF_DEPTH nor ERASURE, so neither does this. -/
abbrev Valid (cfg : Params) : Prop := cfg.MeetsR8 ∧ cfg.FitsFields ∧ cfg.RomIsIdeal

/-- A configuration is built only if it is valid: "refuse one that fails" (R8). -/
def build? (cfg : Params) : Option Params := if cfg.Valid then some cfg else none

end Params

namespace Config

/-- The entries of 41_trellis_rom.md R121. PRESUMED: the spec marks them as general knowledge (log 3). -/
def trellisRomDefault : Vector RomEntry 8 :=
  #v[⟨0, 0⟩, ⟨0, 65535⟩, ⟨0, 65535⟩, ⟨0, 0⟩, ⟨65535, 0⟩, ⟨65535, 65535⟩, ⟨65535, 65535⟩, ⟨65535, 0⟩]

/-- DESIGN CHOICE (log 3): the defaults of 00_scope.md R7. -/
def params : Params where
  histLen := 244
  maxDist := 131070
  initSentinel := 1073741824
  metricW := 32
  failCost := 4294967295
  erasure := 32767
  pbufDepth := 255
  sampleW := 16
  sampleFrac := 12
  level0 := -12288
  level1 := -4096
  level2 := 4096
  level3 := 12288
  trellisRom := trellisRomDefault

/-- The free value of an IBUF element that nothing has written since hardware reset number `epoch` (20_memory.md
R64, 93 U3): no body, so nothing can be proved of it (log 1). -/
opaque unwrittenIbuf (epoch index : Nat) : SoftBit

/-- The free value of a never-written PBUF element (R64, U3, log 1). -/
opaque unwrittenPbuf (epoch index : Nat) : BitVec 1

/-- The free value of a never-written OBUF byte (R64, U3, log 1). -/
opaque unwrittenObuf (epoch index : Nat) : BitVec 8

end Config

end Sys2Proof
end

