-- ==== Sys2Proof/Syntax.lean ====
section
/-! DEFINITION. The thirteen commands (30_encoding.md R74), one constructor per row of opcode_table.json. Operands
are what R75 reads from the fields: indices, positions and lengths are numbers, soft bits are 16-bit words, the
slicer's sample is a signed number. -/

namespace Sys2Proof

/-- A command. Field ranges are in WellFormed.lean (log 11). -/
inductive Instr where
  /-- RST, the `reset` operation (42_viterbi_decoder.md R144). -/
  | rst
  /-- STEP, the `decodeStep` operation (R145). -/
  | step (position : Nat) (s0 s1 : SoftBit)
  /-- CHB, the `chainback` operation (R159). -/
  | chb (position bitLength : Nat)
  /-- DEC, the `decode` operation (R170). -/
  | dec (len : Nat)
  /-- DECP, punctured decode (43_punctured_adapter.md R191). -/
  | decp (inLen pLen : Nat)
  /-- SLC, slice one sample (40_soft_bit_slicer.md R100). -/
  | slc (sample : Int)
  /-- RDT, read one trellis ROM entry (41_trellis_rom.md R124). -/
  | rdt (halfState : Nat)
  /-- LDI, store one input soft bit (44_buffer_and_debug.md R210). -/
  | ldi (index : Nat) (value : SoftBit)
  /-- LDP, store one puncture-pattern bit (R211). -/
  | ldp (index : Nat) (bit : BitVec 1)
  /-- RDO, read one output byte (R212). -/
  | rdo (index : Nat)
  /-- RDM, read one path metric (R213). -/
  | rdm (state : Nat)
  /-- RDH, read one history word (R214). -/
  | rdh (position : Nat)
  /-- RDS, read status (R215). -/
  | rds
  deriving DecidableEq, Repr

end Sys2Proof
end

