-- ==== Sys2Proof/WellFormed.lean ====
section
/-! DEFINITION. Which commands a 64-bit word can carry: every operand fits the field of 30_encoding.md R70, R75. -/

namespace Sys2Proof

/-- A value of the 16-bit fields N, X (R70). -/
def fits16 (v : Nat) : Bool := decide (v < 65536)

/-- A value of the 8-bit field PL (R70). -/
def fits8 (v : Nat) : Bool := decide (v < 256)

/-- Every operand fits its field; a sample is a SAMPLE_W-bit two's-complement number (R75, 40_soft_bit_slicer.md R101). -/
def Instr.wellFormed (i : Instr) (cfg : Params := Config.params) : Bool :=
  match i with
  | .rst => true
  | .step position _ _ => fits16 position
  | .chb position bitLength => fits16 position && fits16 bitLength
  | .dec len => fits16 len
  | .decp inLen pLen => fits16 inLen && fits8 pLen
  | .slc sample => decide (FitsSigned cfg.sampleW sample)
  | .rdt halfState => fits16 halfState
  | .ldi index _ => fits16 index
  | .ldp index _ => fits16 index
  | .rdo index => fits16 index
  | .rdm state => fits16 state
  | .rdh position => fits16 position
  | .rds => true

end Sys2Proof
end

