-- ==== Sys2Proof/Decode.lean ====
section
/-! DEFINITION. The decoder, total on 64-bit words, rejecting by name, and after it the encoder, both written from
the field table of 30_encoding.md R70, R71 and the command table R74; R74's mask and match columns stand at the end
as data, for the statements that hold the decoder against them. -/

namespace Sys2Proof

/-- The five fields of a command word, each an unsigned number of its width (R70, R71). -/
structure Fields where
  opc : Nat
  pl : Nat
  n : Nat
  x : Nat
  y : Nat
  deriving DecidableEq, Repr

/-- Why a word is an illegal command (R76). -/
inductive Illegal where
  /-- The opcode is none of the thirteen. -/
  | undefinedOpcode (opc : Nat)
  /-- The opcode is defined and a must-be-zero bit is not zero (R72). -/
  | mustBeZero (opc : Nat)
  deriving DecidableEq, Repr

/-- Cut a command word into its fields: OPC 63:56, PL 55:48, N 47:32, X 31:16, Y 15:0 (R70). -/
def fieldsOf (w : Word64) : Fields where
  opc := w.toNat / 2 ^ 56
  pl := w.toNat / 2 ^ 48 % 256
  n := w.toNat / 2 ^ 32 % 65536
  x := w.toNat / 2 ^ 16 % 65536
  y := w.toNat % 65536

/-- `sext_w`: a w-bit field read as signed two's complement (R13, R75). -/
def sext (w x : Nat) : Int := if x < 2 ^ (w - 1) then x else (x : Int) - 2 ^ w

/-- The command `i`, if the fields it does not use are all zero (R72). -/
def ifZero (opc : Nat) (unused : List Nat) (i : Instr) : Except Illegal Instr :=
  if unused.all (· == 0) then .ok i else .error (.mustBeZero opc)

/-- One row of R74 per opcode; everything else is illegal (R76). The sample of SLC is SAMPLE_W bits of X (R75 at the
default 16), those above, if any, must be zero (log 14). -/
def decodeFields (f : Fields) (cfg : Params := Config.params) : Except Illegal Instr :=
  match f.opc with
  | 0x01 => ifZero f.opc [f.pl, f.n, f.x, f.y] .rst
  | 0x02 => ifZero f.opc [f.pl] (.step f.n (BitVec.ofNat 16 f.x) (BitVec.ofNat 16 f.y))
  | 0x03 => ifZero f.opc [f.pl, f.y] (.chb f.n f.x)
  | 0x04 => ifZero f.opc [f.pl, f.x, f.y] (.dec f.n)
  | 0x05 => ifZero f.opc [f.x, f.y] (.decp f.n f.pl)
  | 0x06 => ifZero f.opc [f.pl, f.n, f.x / 2 ^ cfg.sampleW, f.y] (.slc (sext cfg.sampleW f.x))
  | 0x07 => ifZero f.opc [f.pl, f.x, f.y] (.rdt f.n)
  | 0x10 => ifZero f.opc [f.pl, f.y] (.ldi f.n (BitVec.ofNat 16 f.x))
  | 0x11 => ifZero f.opc [f.pl, f.x, f.y / 2] (.ldp f.n (BitVec.ofNat 1 f.y))
  | 0x12 => ifZero f.opc [f.pl, f.x, f.y] (.rdo f.n)
  | 0x13 => ifZero f.opc [f.pl, f.x, f.y] (.rdm f.n)
  | 0x14 => ifZero f.opc [f.pl, f.x, f.y] (.rdh f.n)
  | 0x15 => ifZero f.opc [f.pl, f.n, f.x, f.y] .rds
  | opc => .error (.undefinedOpcode opc)

/-- Decode one command word: "every word is either exactly one command or illegal" (R76). -/
def decode (w : Word64) (cfg : Params := Config.params) : Except Illegal Instr := decodeFields (fieldsOf w) cfg

/-- The decoder on a word numbered as opcode_table.json numbers it; bits at and above `nbits` are 0 (log 8). -/
def decodeTableWord (nbits w : Nat) : Option Instr :=
  (decode (BitVec.ofNat 64 (w % 2 ^ nbits))).toOption

/-- Lay the fields out as a word: OPC·2^56 + PL·2^48 + N·2^32 + X·2^16 + Y (R71). -/
def wordOf (f : Fields) : Word64 :=
  BitVec.ofNat 64 (f.opc * 2 ^ 56 + f.pl * 2 ^ 48 + f.n * 2 ^ 32 + f.x * 2 ^ 16 + f.y)

/-- The fields of a command, unused ones zero (R72, R74, R75). -/
def encodeFields (i : Instr) (cfg : Params := Config.params) : Fields :=
  match i with
  | .rst => ⟨0x01, 0, 0, 0, 0⟩
  | .step position s0 s1 => ⟨0x02, 0, position, s0.toNat, s1.toNat⟩
  | .chb position bitLength => ⟨0x03, 0, position, bitLength, 0⟩
  | .dec len => ⟨0x04, 0, len, 0, 0⟩
  | .decp inLen pLen => ⟨0x05, pLen, inLen, 0, 0⟩
  | .slc sample => ⟨0x06, 0, 0, (sample % 2 ^ cfg.sampleW).toNat, 0⟩
  | .rdt halfState => ⟨0x07, 0, halfState, 0, 0⟩
  | .ldi index value => ⟨0x10, 0, index, value.toNat, 0⟩
  | .ldp index bit => ⟨0x11, 0, index, 0, bit.toNat⟩
  | .rdo index => ⟨0x12, 0, index, 0, 0⟩
  | .rdm state => ⟨0x13, 0, state, 0, 0⟩
  | .rdh position => ⟨0x14, 0, position, 0, 0⟩
  | .rds => ⟨0x15, 0, 0, 0, 0⟩

/-- The word of a well-formed command (R71, R74). -/
def encode (i : Instr) (cfg : Params := Config.params) : Word64 := wordOf (encodeFields i cfg)

/-- A row of the command table R74: a word w selects it when (w AND mask) = pattern. -/
structure OpcodeRow where
  mnemonic : String
  mask : Word64
  pattern : Word64
  deriving DecidableEq, Repr

/-- A word selects a row (R74). -/
abbrev OpcodeRow.Selects (r : OpcodeRow) (w : Word64) : Prop := w &&& r.mask = r.pattern

/-- The mask and match columns of R74 and of opcode_table.json, word for word. -/
def opcodeTable : List OpcodeRow := [
  ⟨"RST", 0xFFFFFFFFFFFFFFFF, 0x0100000000000000⟩,
  ⟨"STEP", 0xFFFF000000000000, 0x0200000000000000⟩,
  ⟨"CHB", 0xFFFF00000000FFFF, 0x0300000000000000⟩,
  ⟨"DEC", 0xFFFF0000FFFFFFFF, 0x0400000000000000⟩,
  ⟨"DECP", 0xFF000000FFFFFFFF, 0x0500000000000000⟩,
  ⟨"SLC", 0xFFFFFFFF0000FFFF, 0x0600000000000000⟩,
  ⟨"RDT", 0xFFFF0000FFFFFFFF, 0x0700000000000000⟩,
  ⟨"LDI", 0xFFFF00000000FFFF, 0x1000000000000000⟩,
  ⟨"LDP", 0xFFFF0000FFFFFFFE, 0x1100000000000000⟩,
  ⟨"RDO", 0xFFFF0000FFFFFFFF, 0x1200000000000000⟩,
  ⟨"RDM", 0xFFFF0000FFFFFFFF, 0x1300000000000000⟩,
  ⟨"RDH", 0xFFFF0000FFFFFFFF, 0x1400000000000000⟩,
  ⟨"RDS", 0xFFFFFFFFFFFFFFFF, 0x1500000000000000⟩]

/-- The mnemonic of a command (R74). -/
def Instr.mnemonic : Instr → String
  | .rst => "RST"
  | .step _ _ _ => "STEP"
  | .chb _ _ => "CHB"
  | .dec _ => "DEC"
  | .decp _ _ => "DECP"
  | .slc _ => "SLC"
  | .rdt _ => "RDT"
  | .ldi _ _ => "LDI"
  | .ldp _ _ => "LDP"
  | .rdo _ => "RDO"
  | .rdm _ => "RDM"
  | .rdh _ => "RDH"
  | .rds => "RDS"

end Sys2Proof
end

