-- ==== Sys2Proof/Machine/State.lean ====
section
/-! DEFINITION. The state of one block (10_state.md: prev, curr, HIST, PHASE, IBUF, PBUF, OBUF), its two ports
(30_encoding.md R81), the reasons a step could stop, and the state after hardware reset (10_state.md R40). -/

namespace Sys2Proof.Machine

/-- The status register PHASE; its fourth encoding is never produced (10_state.md R28, 93 U11). -/
inductive Phase where
  | reset
  | accum
  | chained
  deriving DecidableEq, Repr

/-- The ERR field of a response (60_exceptions.md R231). -/
inductive ErrCode where
  | ok
  | capacity
  | illegal
  | operand
  | sequence
  deriving DecidableEq, Repr

/-- A response (ERR, PHASE, VAL) (00_scope.md R14, 30_encoding.md R73). -/
structure Response where
  err : ErrCode
  phase : Phase
  val : BitVec 32
  deriving DecidableEq, Repr

/-- What the host can do to the block (00_scope.md R10, 70_reset_and_hazards.md R272). -/
inductive HostAction where
  /-- Present one 64-bit command word while the block is idle (30_encoding.md R81). -/
  | command (word : Word64)
  /-- Assert and release `rst`, between commands or during one, which is then abandoned without a response
  (70_reset_and_hazards.md R260, log 7). -/
  | rst (abandoned : Option Word64)
  deriving DecidableEq, Repr

/-- An element-indexed space (20_memory.md R50) as a list of (index, element) pairs, indices strictly rising
(`Mem.wf` in Machine/Ops.lean). IBUF, PBUF and OBUF list the elements written since hardware reset; HIST lists the
words that are not zero. -/
abbrev Mem (w : Nat) := List (Nat × BitVec w)

/-- Nothing stops this block: "every 64-bit word gets a response" (60_exceptions.md R241, 93 section 1), so there is
no fault for any definition to raise. A rejected command is a next state (R232), not a fault. -/
inductive Fault : Type
  deriving DecidableEq, Repr

/-- Why a command has no meaning in this model. -/
inductive Refusal where
  /-- Raised only by an arm of `exec` whose command is not modelled; no arm is. Safe: nothing is claimed of it. -/
  | notModelled (mnemonic : String)
  deriving DecidableEq, Repr

/-- Everything the spec gives a block of configuration `cfg` (00_scope.md R7; the default is the spec's), the two ports,
and the counter `epoch` of the model's own. -/
structure State (cfg : Params := Config.params) where
  /-- The authoritative path metrics (R20). -/
  prev : Vector cfg.Metric 16
  /-- The scratch metric file (R21). -/
  curr : Vector cfg.Metric 16
  /-- HIST, unlisted words are 0 (R24, R26). -/
  hist : Mem 16
  /-- PHASE (R28). -/
  phase : Phase
  /-- IBUF, an unlisted element is unspecified (R31, R40). -/
  ibuf : Mem 16
  /-- PBUF, an unlisted element is unspecified (R32, R40). -/
  pbuf : Mem 1
  /-- OBUF, an unlisted byte is unspecified (R33, R40). -/
  obuf : Mem 8
  /-- What the host does next, oldest first (log 4). -/
  host : List HostAction
  /-- What the host's latest action got back (log 5). -/
  response : Option Response
  /-- How many hardware resets there have been since the first one; the argument of the free values (log 2). -/
  epoch : Nat
  deriving DecidableEq, Repr

/-- The state of a block of configuration `cfg` right after hardware reset (10_state.md R40): metrics and history as after RST, PHASE RESET, no buffer
element written. The host has not acted yet (log 4, log 5) and `epoch` starts at 0 (log 2). -/
def State.resetAt (cfg : Params) : State cfg where
  prev := (Vector.replicate 16 cfg.sentinel).set 0 0
  curr := Vector.replicate 16 0
  hist := []
  phase := .reset
  ibuf := []
  pbuf := []
  obuf := []
  host := []
  response := none
  epoch := 0

/-- The state right after hardware reset at the spec's configuration. -/
def State.reset : State := State.resetAt Config.params

end Sys2Proof.Machine
end

