-- ==== Sys2Proof/Machine/Ops.lean ====
section
/-! DEFINITION. The named operations on the block's state: arithmetic primitives (00_scope.md R13), element access
(20_memory.md R51), answering and rejecting a command (R14, 60_exceptions.md R232), the two resets (42 R144, 70 R260),
bits of the output string (20_memory.md R52), and the least metric (42 R163). -/

namespace Sys2Proof.Machine

variable {cfg : Params}

/-! ## Arithmetic primitives (R13) -/

/-- `absdiff(a, b)`: exact, on non-negative integers (R13). -/
def absdiff (a b : Nat) : Nat := if b ≤ a then a - b else b - a

/-- `add32(a, b) = (a + b) mod 2^32` (R13), modulo 2^METRIC_W (92 D5). -/
def addMetric {w : Nat} (a b : BitVec w) : BitVec w := a + b

/-- `sub32(a, b) = (a − b) mod 2^32` (R13), modulo 2^METRIC_W (92 D5). -/
def subMetric {w : Nat} (a b : BitVec w) : BitVec w := a - b

/-- The sum of 2^k over the k below `n` with bit `f k`. -/
def natOfBits (f : Nat → Bool) : Nat → Nat
  | 0 => 0
  | n + 1 => natOfBits f n + (if f n then 2 ^ n else 0)

/-- The 16-bit word whose bit s is `f s` (the decision word of 42 R145). -/
def wordOfBits (f : Nat → Bool) : HistWord := BitVec.ofNat 16 (natOfBits f 16)

/-! ## Element-indexed spaces (20_memory.md R50, R51) -/

/-- The element listed at an index. -/
def Mem.lookup {w : Nat} : Mem w → Nat → Option (BitVec w)
  | [], _ => none
  | (k, v) :: m, i => if i = k then some v else Mem.lookup m i

/-- List the element at an index, replacing what was listed there and keeping the indices rising. -/
def Mem.put {w : Nat} : Mem w → Nat → BitVec w → Mem w
  | [], i, v => [(i, v)]
  | (k, u) :: m, i, v =>
    if i < k then (i, v) :: (k, u) :: m
    else if i = k then (i, v) :: m
    else (k, u) :: Mem.put m i v

/-- List nothing at an index. -/
def Mem.erase {w : Nat} (m : Mem w) (i : Nat) : Mem w := m.filter fun c => c.1 != i

/-- A space of R50: how many elements it has, and what an unlisted element reads as, where that is known. -/
structure Space (w : Nat) where
  depth : Nat
  unlisted : Option (BitVec w)

/-- `MemWrite(space, idx, v)` (R51): writing what an unlisted element reads as takes the entry out, so that equal
contents are equal lists. -/
def Mem.write {w : Nat} (sp : Space w) (m : Mem w) (i : Nat) (v : BitVec w) : Mem w :=
  if sp.unlisted = some v then Mem.erase m i else Mem.put m i v

/-- The canonical form: indices strictly rising and inside the space, no entry equal to what an unlisted element
reads as. -/
abbrev Mem.wf {w : Nat} (sp : Space w) (m : Mem w) : Prop :=
  m.Pairwise (fun a b => a.1 < b.1) ∧ ∀ c ∈ m, c.1 < sp.depth ∧ sp.unlisted ≠ some c.2

/-- IBUF (10_state.md R31): reset contents unspecified. -/
def ibufSpace (cfg : Params) : Space 16 := ⟨cfg.ibufDepth, none⟩

/-- PBUF (R32): reset contents unspecified. -/
def pbufSpace (cfg : Params) : Space 1 := ⟨cfg.pbufDepth, none⟩

/-- OBUF (R33): reset contents unspecified. -/
def obufSpace (cfg : Params) : Space 8 := ⟨cfg.obufBytes, none⟩

/-- HIST (R24, R26): reset contents zero. -/
def histSpace (cfg : Params) : Space 16 := ⟨cfg.histLen, some 0⟩

/-- `MemRead(IBUF, i)`: an element never written holds an unspecified value (R64, log 1). -/
def State.readIbuf (s : State cfg) (i : Nat) : SoftBit :=
  (Mem.lookup s.ibuf i).getD (Config.unwrittenIbuf s.epoch i)

/-- `MemRead(PBUF, i)` (R64, log 1). DESIGN CHOICE (log 15): an index at or above PBUF_DEPTH, which only a DECP with pLen
above PBUF_DEPTH forms, is never listed and reads as a free value too. -/
def State.readPbuf (s : State cfg) (i : Nat) : BitVec 1 :=
  (Mem.lookup s.pbuf i).getD (Config.unwrittenPbuf s.epoch i)

/-- `MemRead(OBUF, i)` (R64, log 1). -/
def State.readObuf (s : State cfg) (i : Nat) : BitVec 8 :=
  (Mem.lookup s.obuf i).getD (Config.unwrittenObuf s.epoch i)

/-- `HIST[p]` (R24): an unlisted word is 0. -/
def State.readHist (s : State cfg) (p : Nat) : HistWord := (Mem.lookup s.hist p).getD 0

/-- `MemWrite(IBUF, i, v)`. -/
def State.writeIbuf (s : State cfg) (i : Nat) (v : SoftBit) : State cfg :=
  { s with ibuf := Mem.write (ibufSpace cfg) s.ibuf i v }

/-- `MemWrite(PBUF, i, v)`. -/
def State.writePbuf (s : State cfg) (i : Nat) (v : BitVec 1) : State cfg :=
  { s with pbuf := Mem.write (pbufSpace cfg) s.pbuf i v }

/-- `HIST[p] <- w`. -/
def State.writeHist (s : State cfg) (p : Nat) (w : HistWord) : State cfg :=
  { s with hist := Mem.write (histSpace cfg) s.hist p w }

/-- Entry `t` of a metric file (R20); every index that a command forms is below 16. -/
def metricAt {w : Nat} (v : Vector (BitVec w) 16) (t : Nat) : BitVec w := v[t]?.getD 0

/-- Entry `i` of the trellis ROM (41_trellis_rom.md R120); every index that a command forms is below 8. -/
def romEntry (cfg : Params) (i : Nat) : RomEntry := cfg.trellisRom[i]?.getD ⟨0, 0⟩

/-! ## The output bit string (20_memory.md R52) -/

/-- Bit-string index j of OBUF: bit 7 − (j mod 8) of byte j div 8. -/
def State.obufBit (s : State cfg) (j : Nat) : Bool := (s.readObuf (j / 8)).getLsbD (7 - j % 8)

/-- OBUF with all OBUF_BYTES bytes 0 (42_viterbi_decoder.md R160). -/
def clearedObuf (cfg : Params) : Mem 8 := (List.range cfg.obufBytes).map fun k => (k, 0)

/-- Set bit-string index j to 1 in an OBUF whose byte j div 8 is listed. -/
def setObufBit (cfg : Params) (m : Mem 8) (j : Nat) : Mem 8 :=
  Mem.write (obufSpace cfg) m (j / 8) ((Mem.lookup m (j / 8)).getD 0 ||| ((1 : BitVec 8) <<< (7 - j % 8)))

/-! ## Answering a command -/

/-- "returns v": ERR 0, PHASE as it is after the command, VAL = v (00_scope.md R14). -/
def State.reply (s : State cfg) (v : BitVec 32) : State cfg :=
  { s with response := some ⟨.ok, s.phase, v⟩ }

/-- The block's one exceptional behaviour, the rejection: no state changes, the response holds the code, the PHASE of
before and FAIL_COST (60_exceptions.md R232). Nothing is saved, entered or returned from (R239, R240). -/
def State.reject (s : State cfg) (e : ErrCode) : State cfg :=
  { s with response := some ⟨e, s.phase, cfg.failVal⟩ }

/-- A command is accepted, leaves `s` and returns VAL = v. -/
def accept (v : BitVec 32) (s : State cfg) : Host.Outcome (State cfg) Fault Refusal := .next (s.reply v)

/-- `raise e` (00_scope.md R13). -/
def raise (e : ErrCode) (s : State cfg) : Host.Outcome (State cfg) Fault Refusal := .next (s.reject e)

/-- Run a command's checks, made before its first write (R232): the first that fails rejects it (R237). -/
def guarded (check : Option ErrCode) (s : State cfg) (accepted : Host.Outcome (State cfg) Fault Refusal) :
    Host.Outcome (State cfg) Fault Refusal :=
  match check with
  | some e => raise e s
  | none => accepted

/-! ## The two resets (70_reset_and_hazards.md R260, R261) -/

/-- The metrics after reset: state 0 at 0, all others at the sentinel (10_state.md R23). -/
def initMetrics (cfg : Params) : Vector cfg.Metric 16 :=
  Vector.ofFn fun t => if t.val = 0 then 0 else cfg.sentinel

/-- The `reset` operation (42_viterbi_decoder.md R144); the buffers are left alone (10_state.md R34). -/
def State.resetDecoder (s : State cfg) : State cfg :=
  { s with prev := initMetrics cfg, curr := Vector.ofFn fun _ => 0, hist := [], phase := .reset }

/-- Hardware reset (R260): the decoder as after RST, the three buffers unspecified anew, nothing returned. -/
def State.hardReset (s : State cfg) : State cfg :=
  { s.resetDecoder with ibuf := [], pbuf := [], obuf := [], response := none, epoch := s.epoch + 1 }

/-! ## The cost (42_viterbi_decoder.md R163) -/

/-- `min(prev[0], ..., prev[15])`, unsigned. -/
def minMetric {w : Nat} (v : Vector (BitVec w) 16) : BitVec w :=
  v.toList.foldl (fun a b => if b < a then b else a) (metricAt v 0)

/-- A metric as the VAL of a response, zero-extended (30_encoding.md R73). -/
def metricVal {w : Nat} (m : BitVec w) : BitVec 32 := m.setWidth 32

end Sys2Proof.Machine
end

