-- ==== Sys2Proof/Machine/Flags.lean ====
section
/-! DEFINITION. The status computations. The block has no condition codes (10_state.md R29); its only status is PHASE
(R28) and the ERR field of a response (60_exceptions.md R231). Here are their encodings and the two words that show
them: the response word (30_encoding.md R73) and the status value of RDS (44 R215). -/

namespace Sys2Proof.Machine

/-- The 2-bit encoding of PHASE (R28). -/
def Phase.code : Phase → BitVec 2
  | .reset => 0
  | .accum => 1
  | .chained => 2

/-- The 4-bit error code (R231). -/
def ErrCode.code : ErrCode → BitVec 4
  | .ok => 0
  | .capacity => 1
  | .illegal => 2
  | .operand => 3
  | .sequence => 4

/-- The response word: ERR 63:60, PHASE 59:58, zero 57:32, VAL 31:0 (R73). -/
def Response.word (r : Response) : Word64 := r.err.code ++ r.phase.code ++ (0 : BitVec 26) ++ r.val

/-- HIST_LEN · 65536 + PHASE (R215). -/
def statusValue (cfg : Params) (p : Phase) : BitVec 32 := BitVec.ofNat 32 (cfg.histLen * 65536 + p.code.toNat)

end Sys2Proof.Machine
end

