-- ==== Sys2Proof/Machine/Operands.lean ====
section
/-! DEFINITION. The operand checks of every command, in the order of 60_exceptions.md R237 (causes R233, R235, R236):
`none` accepts, `some e` is the first check that fails. ILLEGAL is not here: it is the decoder's. -/

namespace Sys2Proof.Machine

variable {cfg : Params}

/-- STEP: CAPACITY (42_viterbi_decoder.md R146), then SEQUENCE (R147). -/
def checkStep (cfg : Params) (position : Nat) (phase : Phase) : Option ErrCode :=
  if position ≥ cfg.histLen then some .capacity
  else if phase = .chained then some .sequence
  else none

/-- CHB: CAPACITY, then OPERAND when the cursor would pass index 0 (R159). -/
def checkChb (cfg : Params) (position bitLength : Nat) : Option ErrCode :=
  if position > cfg.histLen ∨ bitLength > cfg.histLen then some .capacity
  else if position > bitLength + (Config.constraintLength - 1) then some .operand
  else none

/-- DEC: CAPACITY, then OPERAND for an odd length (R171). -/
def checkDec (cfg : Params) (len : Nat) : Option ErrCode :=
  if len > cfg.maxLen then some .capacity
  else if len % 2 = 1 then some .operand
  else none

/-- `expandedLength(inLen, pLen)` (43_punctured_adapter.md R192): `room` is MAX_LEN − u, `none` is OVERFLOW. -/
def expandedLengthFrom (kept : Nat → Bool) (inLen pLen : Nat) : (room i u p : Nat) → Option Nat
  | 0, i, u, _ => if i < inLen then none else some u
  | room + 1, i, u, p =>
    if i < inLen then
      expandedLengthFrom kept inLen pLen room (if kept p then i + 1 else i) (u + 1) ((p + 1) % pLen)
    else some u

/-- PBUF[p] = 1: position p of the pattern is kept (10_state.md R32). -/
def State.kept (s : State cfg) (p : Nat) : Bool := s.readPbuf p == 1

/-- The length of the expansion, from PBUF alone (R192). -/
def expandedLength (s : State cfg) (inLen pLen : Nat) : Option Nat :=
  expandedLengthFrom s.kept inLen pLen cfg.maxLen 0 0 0

/-- DECP: OPERAND for period 0, CAPACITY for the expansion, OPERAND for an odd expansion (R194). DESIGN CHOICE (log 15):
R194 has no check of pLen against PBUF_DEPTH, and there is none here; pLen can exceed it only where PBUF_DEPTH is below
255. -/
def checkDecp (s : State cfg) (inLen pLen : Nat) : Option ErrCode :=
  if pLen = 0 then some .operand
  else match expandedLength s inLen pLen with
    | none => some .capacity
    | some u => if u % 2 = 1 then some .operand else none

/-- LDI, LDP, RDO, RDM, RDH, RDT: OPERAND for an index outside the space (20_memory.md R63). -/
def checkIndex (index depth : Nat) : Option ErrCode :=
  if index ≥ depth then some .operand else none

end Sys2Proof.Machine
end

