-- ==== Sys2Proof/Machine/Access.lean ====
section
/-! DEFINITION. Buffer access and debug reads: LDI, LDP, RDO, RDM, RDH, RDS (44_buffer_and_debug.md). -/

namespace Sys2Proof.Machine

variable {cfg : Params}

/-- LDI (R210). -/
def execLdi (index : Nat) (value : SoftBit) (s : State cfg) : Host.Outcome (State cfg) Fault Refusal :=
  guarded (checkIndex index cfg.ibufDepth) s (accept 0 (s.writeIbuf index value))

/-- LDP (R211). -/
def execLdp (index : Nat) (bit : BitVec 1) (s : State cfg) : Host.Outcome (State cfg) Fault Refusal :=
  guarded (checkIndex index cfg.pbufDepth) s (accept 0 (s.writePbuf index bit))

/-- RDO (R212): the byte zero-extended; a byte never written holds an unspecified value (20_memory.md R64, log 1). -/
def execRdo (index : Nat) (s : State cfg) : Host.Outcome (State cfg) Fault Refusal :=
  guarded (checkIndex index cfg.obufBytes) s (accept ((s.readObuf index).setWidth 32) s)

/-- RDM (R213): reads `prev`, never `curr`. -/
def execRdm (state : Nat) (s : State cfg) : Host.Outcome (State cfg) Fault Refusal :=
  guarded (checkIndex state 16) s (accept (metricVal (metricAt s.prev state)) s)

/-- RDH (R214): the history word zero-extended. -/
def execRdh (position : Nat) (s : State cfg) : Host.Outcome (State cfg) Fault Refusal :=
  guarded (checkIndex position cfg.histLen) s (accept ((s.readHist position).setWidth 32) s)

/-- RDS (R215): HIST_LEN and PHASE. -/
def execRds (s : State cfg) : Host.Outcome (State cfg) Fault Refusal := accept (statusValue cfg s.phase) s

end Sys2Proof.Machine
end

