-- ==== Sys2Proof/Machine/Viterbi.lean ====
section
/-! DEFINITION. The decoder proper: RST, STEP, CHB, DEC (42_viterbi_decoder.md). -/

namespace Sys2Proof.Machine

variable {cfg : Params}

/-! ## One trellis step (R145) -/

/-- bm0 of half-state i: the Manhattan distance to the ideal pair (R150). -/
def branchMetric0 (cfg : Params) (s0 s1 : SoftBit) (i : Nat) : Nat :=
  absdiff (romEntry cfg i).ideal0.toNat s0.toNat + absdiff (romEntry cfg i).ideal1.toNat s1.toNat

/-- bm1 = MAXDIST − bm0, never below zero under the configuration (R151). -/
def branchMetric1 (cfg : Params) (s0 s1 : SoftBit) (i : Nat) : Nat := cfg.maxDist - branchMetric0 cfg s0 s1 i

/-- One winner: decision bit 1 and the second candidate when first ≥ second, else 0 and the first (R153). -/
def select {w : Nat} (first second : BitVec w) : Bool × BitVec w :=
  if second ≤ first then (true, second) else (false, first)

/-- The decision bit and the new metric of successor t (R152, R153): i = t div 2, candidates m0, m1 for t = 2i and
m2, m3 for t = 2i + 1. -/
def survivor (cfg : Params) (prev : Vector cfg.Metric 16) (s0 s1 : SoftBit) (t : Nat) : Bool × cfg.Metric :=
  let i := t / 2
  let bm0 := BitVec.ofNat cfg.metricW (branchMetric0 cfg s0 s1 i)
  let bm1 := BitVec.ofNat cfg.metricW (branchMetric1 cfg s0 s1 i)
  if t % 2 = 0 then select (addMetric (metricAt prev i) bm0) (addMetric (metricAt prev (i + 8)) bm1)
  else select (addMetric (metricAt prev i) bm1) (addMetric (metricAt prev (i + 8)) bm0)

/-- The step: HIST[position] gets the decision word, the metric files are swapped, PHASE becomes ACCUM (R154, R155,
R157). The checks of R146 and R147 are the command's. -/
def trellisStep (position : Nat) (s0 s1 : SoftBit) (s : State cfg) : State cfg :=
  { s.writeHist position (wordOfBits fun t => (survivor cfg s.prev s0 s1 t).1) with
    prev := Vector.ofFn fun t => (survivor cfg s.prev s0 s1 t).2
    curr := s.prev
    phase := .accum }

/-! ## The chainback (R159) -/

/-- The walk of R161 over HIST words p−1 down to 0: `r` is the shift register R, `c` the output cursor. -/
def walk (cfg : Params) (hist : Nat → HistWord) : (p : Nat) → (r : BitVec 8) → (c : Nat) → Mem 8 → Mem 8
  | 0, _, _, out => out
  | p + 1, r, c, out =>
    let d := (hist p).getLsbD (r.extractLsb' 4 4).toNat
    walk cfg hist p ((r >>> 1) ||| (if d then 0x80 else 0)) (c - 1) (if d then setObufBit cfg out (c - 1) else out)

/-- The chainback: OBUF is cleared, then written by the walk; PHASE becomes CHAINED (R160, R161). -/
def chainback (position bitLength : Nat) (s : State cfg) : State cfg :=
  { s with
    obuf := walk cfg s.readHist position 0 (bitLength + (Config.constraintLength - 1)) (clearedObuf cfg)
    phase := .chained }

/-! ## The decode (R170) -/

/-- Steps t = 0 .. n−1 with s0 = E(2t), s1 = E(2t + 1), position = t. -/
def runSteps (e : Nat → SoftBit) : (n : Nat) → State cfg → State cfg
  | 0, s => s
  | n + 1, s => trellisStep n (e (2 * n)) (e (2 * n + 1)) (runSteps e n s)

/-- Reset, one step per soft-bit pair, chainback (R170), of `n` pairs of the sequence `e`. -/
def decodePairs (e : Nat → SoftBit) (n : Nat) (s : State cfg) : State cfg :=
  chainback n n (runSteps e n s.resetDecoder)

/-! ## The commands -/

/-- RST (R144). -/
def execRst (s : State cfg) : Host.Outcome (State cfg) Fault Refusal := accept 0 s.resetDecoder

/-- STEP (R145). -/
def execStep (position : Nat) (s0 s1 : SoftBit) (s : State cfg) : Host.Outcome (State cfg) Fault Refusal :=
  guarded (checkStep cfg position s.phase) s (accept 0 (trellisStep position s0 s1 s))

/-- CHB (R159): VAL is the least metric (R163). -/
def execChb (position bitLength : Nat) (s : State cfg) : Host.Outcome (State cfg) Fault Refusal :=
  guarded (checkChb cfg position bitLength) s (accept (metricVal (minMetric s.prev)) (chainback position bitLength s))

/-- DEC (R170): VAL is the cost of its chainback. -/
def execDec (len : Nat) (s : State cfg) : Host.Outcome (State cfg) Fault Refusal :=
  guarded (checkDec cfg len) s
    (accept (metricVal (minMetric (decodePairs s.readIbuf (len / 2) s).prev)) (decodePairs s.readIbuf (len / 2) s))

end Sys2Proof.Machine
end

