-- ==== Sys2Proof/Machine/Punctured.lean ====
section
/-! DEFINITION. punctured_code_adapter: DECP (43_punctured_adapter.md). -/

namespace Sys2Proof.Machine

variable {cfg : Params}

/-- `expand` (R193): `turns` is the expanded length, i the next input soft bit, p the pattern index. -/
def expandFrom (cfg : Params) (kept : Nat → Bool) (input : Nat → SoftBit) (pLen : Nat) : (turns i p : Nat) → List SoftBit
  | 0, _, _ => []
  | turns + 1, i, p =>
    if kept p then input i :: expandFrom cfg kept input pLen turns (i + 1) ((p + 1) % pLen)
    else cfg.erasureBit :: expandFrom cfg kept input pLen turns i ((p + 1) % pLen)

/-- The expansion E[0..u−1] (R193). -/
def expansion (s : State cfg) (pLen u : Nat) : List SoftBit := expandFrom cfg s.kept s.readIbuf pLen u 0 0

/-- The expansion as a sequence; indices at and above its length are not read. -/
def expandedBit (s : State cfg) (pLen u k : Nat) : SoftBit := (expansion s pLen u).getD k 0

/-- (u − inLen) · ERASURE, the bias of the inserted erasures (R196). -/
def erasureBias (cfg : Params) (u inLen : Nat) : cfg.Metric :=
  BitVec.ofNat cfg.metricW ((u - inLen) * cfg.erasure)

/-- The accepted DECP of expanded length u: the decode of R170 on E, its cost corrected (R191, R196). -/
def decodePunctured (inLen pLen u : Nat) (s : State cfg) : Host.Outcome (State cfg) Fault Refusal :=
  accept
    (metricVal
      (subMetric (minMetric (decodePairs (expandedBit s pLen u) (u / 2) s).prev) (erasureBias cfg u inLen)))
    (decodePairs (expandedBit s pLen u) (u / 2) s)

/-- DECP (R191). The checks of R194 accept only when the expansion has a length. -/
def execDecp (inLen pLen : Nat) (s : State cfg) : Host.Outcome (State cfg) Fault Refusal :=
  guarded (checkDecp s inLen pLen) s
    (decodePunctured inLen pLen ((expandedLength s inLen pLen).getD 0) s)

end Sys2Proof.Machine
end

