-- ==== Sys2Proof/Machine/Slicer.lean ====
section
/-! DEFINITION. soft_bit_slicer: the two transfer curves and SLC (40_soft_bit_slicer.md). -/

namespace Sys2Proof.Machine

/-- The real value of a sample: SAMPLE_FRAC of its bits are fractional (R101). The curves need its integer only. -/
def sampleValue (cfg : Params) (x : Int) : Rat := x / 2 ^ cfg.sampleFrac

/-- A ramp: 65535 · d formed exactly, then floor division by the span (R107). -/
def ramp (d span : Int) : Int := ((Config.softMax : Int) * d) / span

/-- B1, the soft bit of the more-significant dibit bit (R102). -/
def sliceB1 (cfg : Params) (x : Int) : Int :=
  if x ≥ cfg.level2 then 0
  else if x ≤ cfg.level1 then Config.softMax
  else ramp (cfg.level2 - x) (cfg.level2 - cfg.level1)

/-- B0, the soft bit of the less-significant dibit bit (R103). -/
def sliceB0 (cfg : Params) (x : Int) : Int :=
  if x ≥ cfg.level3 then Config.softMax
  else if x ≥ cfg.level2 then
    ramp (x - cfg.level2) (cfg.level3 - cfg.level2)
  else if x ≥ cfg.level1 then 0
  else if x ≥ cfg.level0 then
    ramp (cfg.level1 - x) (cfg.level1 - cfg.level0)
  else Config.softMax

/-- SLC (R100): VAL = B1 · 65536 + B0; every sample is legal; no state is read or written. -/
def execSlc {cfg : Params} (sample : Int) (s : State cfg) : Host.Outcome (State cfg) Fault Refusal :=
  accept (BitVec.ofInt 16 (sliceB1 cfg sample) ++ BitVec.ofInt 16 (sliceB0 cfg sample)) s

end Sys2Proof.Machine
end

