-- ==== Sys2Proof/Machine/Trellis.lean ====
section
/-! DEFINITION. convolutional_trellis_rom: the debug read RDT (41_trellis_rom.md). -/

namespace Sys2Proof.Machine

/-- RDT (R124): VAL = idealBit0(N) · 65536 + idealBit1(N). -/
def execRdt {cfg : Params} (halfState : Nat) (s : State cfg) : Host.Outcome (State cfg) Fault Refusal :=
  guarded (checkIndex halfState 8) s
    (accept ((romEntry cfg halfState).ideal0 ++ (romEntry cfg halfState).ideal1) s)

end Sys2Proof.Machine
end

