-- ==== Sys2Proof/Machine/Dispatch.lean ====
section
/-! DEFINITION. One arm per command: a direct call of its meaning. -/

namespace Sys2Proof.Machine

def exec (i : Instr) (s : State) : Host.Outcome State Fault Refusal :=
  match i with
  | .rst => Sys2Proof.Machine.execRst s
  | .step position s0 s1 => Sys2Proof.Machine.execStep position s0 s1 s
  | .chb position bitLength => Sys2Proof.Machine.execChb position bitLength s
  | .dec len => Sys2Proof.Machine.execDec len s
  | .decp inLen pLen => Sys2Proof.Machine.execDecp inLen pLen s
  | .slc sample => Sys2Proof.Machine.execSlc sample s
  | .rdt halfState => Sys2Proof.Machine.execRdt halfState s
  | .ldi index value => Sys2Proof.Machine.execLdi index value s
  | .ldp index bit => Sys2Proof.Machine.execLdp index bit s
  | .rdo index => Sys2Proof.Machine.execRdo index s
  | .rdm state => Sys2Proof.Machine.execRdm state s
  | .rdh position => Sys2Proof.Machine.execRdh position s
  | .rds => Sys2Proof.Machine.execRds s

end Sys2Proof.Machine
end

