-- ==== Sys2Proof/Machine/Port.lean ====
section
/-! DEFINITION. The command port and the `rst` input (30_encoding.md R81, 70_reset_and_hazards.md R260) of a block of any
configuration, and the dispatch of a block of any configuration. `exec` and `step` are these at the spec's defaults. -/

namespace Sys2Proof.Machine

variable {cfg : Params}

/-- `exec` at any configuration: the same meanings (00_scope.md R7). -/
def execAt (i : Instr) (s : State cfg) : Host.Outcome (State cfg) Fault Refusal :=
  match i with
  | .rst => execRst s
  | .step position s0 s1 => execStep position s0 s1 s
  | .chb position bitLength => execChb position bitLength s
  | .dec len => execDec len s
  | .decp inLen pLen => execDecp inLen pLen s
  | .slc sample => execSlc sample s
  | .rdt halfState => execRdt halfState s
  | .ldi index value => execLdi index value s
  | .ldp index bit => execLdp index bit s
  | .rdo index => execRdo index s
  | .rdm state => execRdm state s
  | .rdh position => execRdh position s
  | .rds => execRds s

/-- Decode a command word, then `run` the command, or reject the word as ILLEGAL (30_encoding.md R76). -/
def performWord (run : Instr → State cfg → Host.Outcome (State cfg) Fault Refusal) (w : Word64) (s : State cfg) :
    Host.Outcome (State cfg) Fault Refusal :=
  match decode w cfg with
  | .ok i => run i s
  | .error _ => raise .illegal s

/-- One host action (70_reset_and_hazards.md R272). A reset during a command abandons it: it returns no response and
leaves the reset state, whatever it was (R260, log 7). -/
def perform (run : Instr → State cfg → Host.Outcome (State cfg) Fault Refusal) (action : HostAction) (s : State cfg) :
    Host.Outcome (State cfg) Fault Refusal :=
  match action with
  | .command w => performWord run w s
  | .rst _ => .next s.hardReset

/-- One host action from arrival to response; an idle block keeps all its state (60_exceptions.md R243, log 6). -/
def stepWith (run : Instr → State cfg → Host.Outcome (State cfg) Fault Refusal) (s : State cfg) :
    Host.Outcome (State cfg) Fault Refusal :=
  match s.host with
  | [] => .next s
  | action :: rest => perform run action { s with host := rest }

/-- The host's next action is the command word numbered as opcode_table.json numbers it (log 4, log 8). -/
def State.present (s : State cfg) (nbits w : Nat) : State cfg :=
  { s with host := .command (BitVec.ofNat 64 (w % 2 ^ nbits)) :: s.host }

end Sys2Proof.Machine
end

