-- ==== Sys2Proof/Machine/Step.lean ====
section
/-! DEFINITION. One step: the block takes the host's next action (Machine/Port.lean), and the word the host's next
command is placed at. The block has no program counter and fetches nothing (10_state.md R27). -/

namespace Sys2Proof.Machine

/-- One host action, its command performed by `exec`. -/
def step (s : State) : Host.Outcome State Fault Refusal := stepWith exec s

/-- `s` with the command word as the host's next action (log 4). -/
def State.withFetchWord (s : State) (nbits w : Nat) : State := s.present nbits w

end Sys2Proof.Machine
end

