-- ==== Sys2Proof/Safety.lean ====
section
/-! DEFINITION. The vocabulary of the statements: runs of commands, frames, the invariant of every step, the host
duty of 70_reset_and_hazards.md R262 (only written buffer elements are read), and the reference encoder of
95_test_vectors.md section 2, which is a test fixture and not hardware. -/

namespace Sys2Proof.Machine

/-! ## A block of any configuration -/

/-- The machine of a block of configuration `cfg` (00_scope.md R7: the parameters as an argument, with the spec's
defaults). `core` is this block at the defaults. -/
def coreAt (cfg : Params) : Host.Core where
  State := State cfg
  Fault := Fault
  Refusal := Refusal
  step := stepWith execAt
  reset := State.resetAt cfg

/-- The machine of a configuration, refused if the configuration fails its checks (00_scope.md R8,
41_trellis_rom.md R120). -/
def coreOf? (cfg : Params) : Option Host.Core := cfg.build?.map coreAt

/-- What n trellis steps after reset leave of the metrics: a state that n steps can reach from state 0 has at most
n · MAXDIST, every other one lies between INIT_SENTINEL and INIT_SENTINEL + n · MAXDIST (42_viterbi_decoder.md R158,
R175). -/
structure State.MetricBounds {cfg : Params} (s : State cfg) (n : Nat) : Prop where
  reached : ∀ k, k < 16 → k < 2 ^ n → (metricAt s.prev k).toNat ≤ n * cfg.maxDist
  unreached : ∀ k, k < 16 → 2 ^ n ≤ k →
    cfg.initSentinel ≤ (metricAt s.prev k).toNat ∧ (metricAt s.prev k).toNat ≤ cfg.initSentinel + n * cfg.maxDist

/-! ## Runs and frames -/

/-- Perform commands in order, each to completion (00_scope.md R6, 20_memory.md R58). -/
def runCommands : List Instr → State → Host.Outcome State Fault Refusal
  | [], s => .next s
  | i :: is, s =>
    match exec i s with
    | .next t => runCommands is t
    | .fault r => .fault r
    | .refused r => .refused r

/-- prev, curr and HIST are as before. -/
def SameTrellis (s t : State) : Prop := t.prev = s.prev ∧ t.curr = s.curr ∧ t.hist = s.hist

/-- IBUF and PBUF are as before, element by element: the same elements listed and the same free values. -/
def SameInputs (s t : State) : Prop := t.ibuf = s.ibuf ∧ t.pbuf = s.pbuf ∧ t.epoch = s.epoch

/-- OBUF is as before, byte by byte: the same bytes listed and the same free values. -/
def SameOutput (s t : State) : Prop := t.obuf = s.obuf ∧ t.epoch = s.epoch

/-- The two runs differ, if at all, in the response only. -/
def OnlyResponse (s t : State) : Prop := t = { s with response := t.response }

/-! ## The invariant -/

/-- The decoder is in the initial condition of 10_state.md R23 and R26. -/
def State.Initial (s : State) : Prop :=
  metricAt s.prev 0 = 0 ∧ (∀ k, 1 ≤ k → k < 16 → metricAt s.prev k = Config.params.sentinel) ∧
  (∀ k, k < 16 → metricAt s.curr k = 0) ∧ ∀ p, s.readHist p = 0

/-- What every step keeps: the four memories in canonical form, inside their spaces (20_memory.md R50, R63), OBUF
either never written or written whole (10_state.md R33), and PHASE RESET only in the initial condition (R28). -/
structure State.Inv (s : State) : Prop where
  hist_wf : Mem.wf (histSpace Config.params) s.hist
  ibuf_wf : Mem.wf (ibufSpace Config.params) s.ibuf
  pbuf_wf : Mem.wf (pbufSpace Config.params) s.pbuf
  obuf_wf : Mem.wf (obufSpace Config.params) s.obuf
  obuf_whole : s.obuf = [] ∨ ∀ k, k < Config.params.obufBytes → (Mem.lookup s.obuf k).isSome
  reset_initial : s.phase = .reset → s.Initial

/-! ## The host's duty of R262 -/

/-- Something has written this element since hardware reset. -/
def Mem.written {w : Nat} (m : Mem w) (i : Nat) : Bool := (Mem.lookup m i).isSome

/-- Every buffer element that the command reads has been written since hardware reset (70_reset_and_hazards.md R262,
20_memory.md R64). A command that does not meet this runs on free values (log 1). -/
def readsWritten (i : Instr) (s : State) : Bool :=
  match i with
  | .dec len => (List.range len).all fun k => Mem.written s.ibuf k
  | .decp inLen pLen =>
    ((List.range inLen).all fun k => Mem.written s.ibuf k) &&
      ((List.range pLen).all fun k => Mem.written s.pbuf k)
  | .rdo index => Mem.written s.obuf index
  | .rst | .step _ _ _ | .chb _ _ | .slc _ | .rdt _ | .ldi _ _ | .ldp _ _ | .rdm _ | .rdh _ | .rds => true

/-- The host's next action keeps R262. -/
def nextActionSafe (s : State) : Bool :=
  match s.host with
  | .command w :: _ =>
    match decode w with
    | .ok i => readsWritten i s
    | .error _ => true
  | _ => true

/-! ## Words of the rules that the statements use -/

/-- The exact distance of two soft values (42_viterbi_decoder.md R150). -/
def softDistance (a b : SoftBit) : Nat := ((a.toNat : Int) - (b.toNat : Int)).natAbs

/-- The ideal pair of the transition from state `p` with input bit `b`: entry p mod 8, complemented when
(p div 8) XOR b = 1 (41_trellis_rom.md R122). -/
def idealPair (p : Nat) (b : Bool) : SoftBit × SoftBit :=
  let e := romEntry Config.params (p % 8)
  if xor (p / 8 == 1) b then (65535 - e.ideal0, 65535 - e.ideal1) else (e.ideal0, e.ideal1)

/-- The Manhattan distance of a received pair to the ideal pair of a transition. -/
def transitionDistance (p : Nat) (b : Bool) (s0 s1 : SoftBit) : Nat :=
  softDistance (idealPair p b).1 s0 + softDistance (idealPair p b).2 s1

/-- The number of kept pattern positions among the first `k` full-rate positions (43_punctured_adapter.md R192). -/
def keptBefore (s : State) (pLen k : Nat) : Nat :=
  (List.range k).countP fun j => s.readPbuf (j % pLen) == 1

/-- The encoder state after an input bit list (42_viterbi_decoder.md R142). -/
def encoderState (st : Nat) (bits : List Bool) : Nat :=
  bits.foldl (fun st b => (2 * st + b.toNat) % 16) st

/-- The reference encoder: from state `st`, the ideal soft bits of an input bit list, first coded bit first
(95_test_vectors.md section 2, 42_viterbi_decoder.md R142). -/
def referenceEncode (st : Nat) : List Bool → List SoftBit
  | [] => []
  | b :: bs =>
    (idealPair st b).1 :: (idealPair st b).2 :: referenceEncode ((2 * st + b.toNat) % 16) bs

/-- The distance between a soft-bit sequence and the reference encoder's output from state `st`: the accumulated
distance of a path (10_state.md R20). -/
def pathDistance (e : Nat → SoftBit) (st : Nat) (bits : List Bool) : Nat :=
  ((List.range (2 * bits.length)).map fun k => softDistance ((referenceEncode st bits).getD k 0) (e k)).sum

end Sys2Proof.Machine
end

