-- ==== Sys2Proof/Certificates/Slice0/Obligations.lean ====
section
/-! DEFINITION. The statements for the provers, from the numbered rules of spec/ (listed in OBLIGATIONS.json). -/

open Sys2Proof Sys2Proof.Machine

/-! ## Encoding -/

/-- Words of 95_test_vectors.md section 7, one of each family, decode to the commands they stand for. -/
def Obligations.SpecWordsDecode : Prop :=
  decode 0x0100000000000000 = .ok .rst ∧
  decode 0x02000003FFFF0000 = .ok (.step 3 0xFFFF 0) ∧
  decode 0x0300000800080000 = .ok (.chb 8 8) ∧
  decode 0x0508002300000000 = .ok (.decp 35 8) ∧
  decode 0x06000000F0010000 = .ok (.slc (-4095)) ∧
  decode 0x0700000500000000 = .ok (.rdt 5) ∧
  decode 0x1000000D50000000 = .ok (.ldi 13 0x5000) ∧
  decode 0x1100000000000001 = .ok (.ldp 0 1) ∧
  decode 0x1100000000000002 = .error (.mustBeZero 0x11) ∧
  decode 0x0000000000000000 = .error (.undefinedOpcode 0)

/-- Decoding the encoding of any well-formed command gives the command back (30_encoding.md R70, R71, R75). -/
def Obligations.DecodeOfEncodeIsIdentity : Prop :=
  ∀ i : Instr, i.wellFormed = true → decode (encode i) = .ok i

/-- Each accepted word is the encoding of the one well-formed command it decodes to (R72, R76). -/
def Obligations.AcceptedWordIsEncoding : Prop :=
  ∀ (w : Word64) (i : Instr), decode w = .ok i → i.wellFormed = true ∧ encode i = w

/-- R74: the decoder accepts a word exactly when a row of the mask and match table selects it, and then gives a command
of that row; no word is selected by two rows. -/
def Obligations.DecoderFollowsMaskAndMatch : Prop :=
  ∀ w : Word64,
    (∀ i, decode w = .ok i → ∃ r ∈ opcodeTable, r.Selects w ∧ r.mnemonic = i.mnemonic) ∧
    (∀ r ∈ opcodeTable, r.Selects w → ∃ i, decode w = .ok i ∧ i.mnemonic = r.mnemonic) ∧
    (∀ r ∈ opcodeTable, ∀ r' ∈ opcodeTable, r.Selects w → r'.Selects w → r = r')

/-- R73: the response word's fields are ERR 63:60, PHASE 59:58, zero 57:32 and VAL 31:0, and the word value is
ERR·2^60 + PHASE·2^58 + VAL, with the codes of R231 and R28. -/
def Obligations.ResponseWordHasItsFields : Prop :=
  ∀ (e : ErrCode) (p : Phase) (v : BitVec 32),
    let word := (Response.mk e p v).word
    let err : Nat := match e with
      | .ok => 0 | .capacity => 1 | .illegal => 2 | .operand => 3 | .sequence => 4
    let ph : Nat := match p with
      | .reset => 0 | .accum => 1 | .chained => 2
    word.toNat = err * 2 ^ 60 + ph * 2 ^ 58 + v.toNat ∧
    (word.extractLsb' 60 4).toNat = err ∧ (word.extractLsb' 58 2).toNat = ph ∧
    word.extractLsb' 32 26 = 0 ∧ word.extractLsb' 0 32 = v

/-! ## The step -/

/-- When the host's next action is a word that decodes to a command, the step is exec of it, the action taken off. -/
def Obligations.StepRunsDecodedCommand : Prop :=
  ∀ (s : State) (w : Word64) (rest : List HostAction) (i : Instr),
    s.host = .command w :: rest → decode w = .ok i → step s = exec i { s with host := rest }

/-- R76, R234: every word is either exactly one command or illegal. A word that no row of R74 selects is rejected: ERR =
2, VAL = FAIL_COST, no state changes; a word that a row selects is one command, and its response is never ILLEGAL. -/
def Obligations.UnselectedWordIsRejected : Prop :=
  ErrCode.illegal.code = 2 ∧
  ∀ (s : State) (w : Word64) (rest : List HostAction), s.host = .command w :: rest →
    ((∀ r ∈ opcodeTable, ¬ r.Selects w) →
      step s = .next { s with host := rest, response := some ⟨.illegal, s.phase, Config.params.failVal⟩ }) ∧
    ((∃ r ∈ opcodeTable, r.Selects w) →
      ∃ i t x, decode w = .ok i ∧ step s = .next t ∧ t.response = some x ∧ x.err ≠ .illegal)

/-- R260: `rst`, asserted between commands or during one, leaves the decoder as after RST, every buffer element
unwritten, and returns no response. The response port then shows nothing and `epoch` counts on (log 2, log 5, log 7:
the model's own choices). -/
def Obligations.HardwareResetGivesResetState : Prop :=
  ∀ (s : State) (abandoned : Option Word64) (rest : List HostAction),
    s.host = .rst abandoned :: rest →
    ∃ t, step s = .next t ∧ t.Initial ∧ t.phase = .reset ∧
      (∀ k, Mem.written t.ibuf k = false ∧ Mem.written t.pbuf k = false ∧ Mem.written t.obuf k = false) ∧
      t.response = none ∧ t.host = rest ∧ t.epoch = s.epoch + 1

/-- R243: with no action of the host the block is idle and keeps all its state (log 6: an idle step is the model's). -/
def Obligations.IdleBlockKeepsItsState : Prop :=
  ∀ s : State, s.host = [] → step s = .next s

/-- R40: the state after hardware reset. The empty ports and epoch 0 are the model's choices (log 2, log 4, log 5). -/
def Obligations.ResetStateIsAsTheTableSays : Prop :=
  State.reset.Initial ∧ State.reset.phase = .reset ∧
  (∀ k, Mem.written State.reset.ibuf k = false ∧ Mem.written State.reset.pbuf k = false ∧
    Mem.written State.reset.obuf k = false) ∧
  State.reset.host = [] ∧ State.reset.response = none ∧ State.reset.epoch = 0

/-- R8: the configuration meets its constraints, a block built with it is the model's machine, and building a block
with a configuration that fails them is refused; so is one whose widths do not fit their fields (log 14) and one whose
TRELLIS_ROM holds a value other than 0 and 65535 (R120; that the build checks it is log 16's). -/
def Obligations.ConfigurationMeetsConstraints : Prop :=
  Config.params.MeetsR8 ∧ coreOf? Config.params = some Sys2Proof.core ∧
  (∀ cfg : Params, ¬ cfg.MeetsR8 → coreOf? cfg = none) ∧
  (∀ cfg : Params, ¬ cfg.FitsFields → coreOf? cfg = none) ∧
  ∀ (cfg : Params) (i : Nat), i < 8 →
    (¬ ((romEntry cfg i).ideal0 = 0 ∨ (romEntry cfg i).ideal0 = 65535) ∨
      ¬ ((romEntry cfg i).ideal1 = 0 ∨ (romEntry cfg i).ideal1 = 65535)) → coreOf? cfg = none

/-! ## Invariants -/

/-- The invariant holds right after hardware reset. -/
def Obligations.ResetMeetsInvariant : Prop := State.reset.Inv

/-- Every step from a state that meets the invariant gives a state that meets it. -/
def Obligations.StepKeepsInvariant : Prop :=
  ∀ s t : State, s.Inv → step s = .next t → t.Inv

/-- R158, R175: after RST and n ≤ HIST_LEN accepted STEPs at any positions, no metric has wrapped: a state that n steps
can reach from state 0 has a metric of at most n·MAXDIST, every other state one between INIT_SENTINEL and
INIT_SENTINEL + n·MAXDIST; from four steps on every metric is below INIT_SENTINEL. -/
def Obligations.MetricsStayInBoundsAfterReset : Prop :=
  ∀ (s : State) (steps : List (Nat × SoftBit × SoftBit)),
    steps.length ≤ Config.params.histLen → (∀ c ∈ steps, c.1 < Config.params.histLen) →
    ∃ t : State, runCommands (.rst :: steps.map fun c => .step c.1 c.2.1 c.2.2) s = .next t ∧
      t.MetricBounds steps.length ∧
      (4 ≤ steps.length → ∀ k, k < 16 → (metricAt t.prev k).toNat < Config.params.initSentinel)

/-- R8, R175 for a block of any valid configuration (R7), MAXDIST at least 2 · SOFT_MAX as R151 needs it: RST leaves the
bounds of no step, and a state with the bounds of n < HIST_LEN steps goes under any accepted STEP to one with the bounds
of n + 1 steps; within the bounds every metric is below FAIL_COST, so no addition wraps. The limits on the widths in
`Valid` and its check of the ROM are the model's (log 14, log 16), and so is `execAt`, the dispatch at any configuration. -/
def Obligations.StepAdvancesMetricBounds : Prop :=
  ∀ cfg : Params, cfg.Valid → 2 * Config.softMax ≤ cfg.maxDist →
    (∀ s : State cfg, ∃ t : State cfg, execAt .rst s = .next t ∧ t.MetricBounds 0) ∧
    (∀ (s : State cfg) (n position : Nat) (s0 s1 : SoftBit),
      n < cfg.histLen → s.MetricBounds n → position < cfg.histLen → s.phase ≠ .chained →
      ∃ t : State cfg, execAt (.step position s0 s1) s = .next t ∧ t.MetricBounds (n + 1)) ∧
    ∀ (s : State cfg) (n : Nat), n ≤ cfg.histLen → s.MetricBounds n →
      ∀ k, k < 16 → (metricAt s.prev k).toNat < cfg.failCost

/-! ## Answers and rejections -/

/-- Every step answers a next state, and every command one response (R241), whose PHASE is the PHASE register after the
command and whose VAL is FAIL_COST when ERR is not 0 (R14, R73); the host's later actions are left alone. Two clauses are
the model's choice: that an idle block takes a step at all (log 6), and that no command is refused, also one that reads a
buffer element never written, which 93 U3 asks a model to refuse (log 1, log 10). -/
def Obligations.EveryCommandIsAnswered : Prop :=
  (∀ s : State, ∃ t, step s = .next t) ∧
  ∀ (i : Instr) (s : State), ∃ t r, exec i s = .next t ∧ t.response = some r ∧ r.phase = t.phase ∧
    (r.err ≠ .ok → r.val = Config.params.failVal) ∧ t.host = s.host ∧ t.epoch = s.epoch

/-- R232: a rejected command changes no state; its response has VAL = FAIL_COST and the PHASE of before. -/
def Obligations.RejectionChangesNothing : Prop :=
  ∀ (i : Instr) (s t : State) (r : Response),
    exec i s = .next t → t.response = some r → r.err ≠ .ok →
    t = { s with response := some ⟨r.err, s.phase, Config.params.failVal⟩ }

/-- R146, R147, R237: STEP reports CAPACITY for a position beyond the history, then SEQUENCE when PHASE is CHAINED, and
changes nothing; otherwise it is accepted. -/
def Obligations.StepChecksInOrder : Prop :=
  ∀ (s : State) (n : Nat) (s0 s1 : SoftBit),
    (Config.params.histLen ≤ n →
      exec (.step n s0 s1) s = .next { s with response := some ⟨.capacity, s.phase, Config.params.failVal⟩ }) ∧
    (n < Config.params.histLen → s.phase = .chained →
      exec (.step n s0 s1) s = .next { s with response := some ⟨.sequence, s.phase, Config.params.failVal⟩ }) ∧
    (n < Config.params.histLen → s.phase ≠ .chained →
      ∃ t, exec (.step n s0 s1) s = .next t ∧ t.response = some ⟨.ok, .accum, 0⟩)

/-- The checks of CHB in order (R159): CAPACITY, then OPERAND; a rejection changes nothing; otherwise it is accepted. -/
def Obligations.ChainbackChecksInOrder : Prop :=
  ∀ (s : State) (n x : Nat),
    (Config.params.histLen < n ∨ Config.params.histLen < x →
      exec (.chb n x) s = .next { s with response := some ⟨.capacity, s.phase, Config.params.failVal⟩ }) ∧
    (n ≤ Config.params.histLen → x ≤ Config.params.histLen → x + 4 < n →
      exec (.chb n x) s = .next { s with response := some ⟨.operand, s.phase, Config.params.failVal⟩ }) ∧
    (n ≤ Config.params.histLen → x ≤ Config.params.histLen → n ≤ x + 4 →
      ∃ t v, exec (.chb n x) s = .next t ∧ t.response = some ⟨.ok, .chained, v⟩)

/-- R171: DEC rejects a length above MAX_LEN with CAPACITY, then an odd one with OPERAND, and performs no reset then;
every even length up to MAX_LEN itself is accepted. -/
def Obligations.DecodeChecksInOrder : Prop :=
  ∀ (s : State) (len : Nat),
    (Config.params.maxLen < len →
      exec (.dec len) s = .next { s with response := some ⟨.capacity, s.phase, Config.params.failVal⟩ }) ∧
    (len ≤ Config.params.maxLen → len % 2 = 1 →
      exec (.dec len) s = .next { s with response := some ⟨.operand, s.phase, Config.params.failVal⟩ }) ∧
    (len ≤ Config.params.maxLen → len % 2 = 0 →
      ∃ t v, exec (.dec len) s = .next t ∧ t.response = some ⟨.ok, .chained, v⟩)

/-- R194: DECP rejects period 0 (OPERAND), then an expansion longer than MAX_LEN (CAPACITY; an input above MAX_LEN and
a pattern with no kept position are such), then an odd expansion (OPERAND); a rejection changes nothing. -/
def Obligations.PuncturedChecksInOrder : Prop :=
  ∀ (s : State) (inLen pLen : Nat),
    let rejected (e : ErrCode) : Host.Outcome State Fault Refusal :=
      .next { s with response := some ⟨e, s.phase, Config.params.failVal⟩ }
    (pLen = 0 → exec (.decp inLen pLen) s = rejected .operand) ∧
    (pLen ≠ 0 → keptBefore s pLen Config.params.maxLen < inLen → exec (.decp inLen pLen) s = rejected .capacity) ∧
    (pLen ≠ 0 → Config.params.maxLen < inLen → exec (.decp inLen pLen) s = rejected .capacity) ∧
    (pLen ≠ 0 → 0 < inLen → (∀ p, p < pLen → s.readPbuf p ≠ 1) →
      exec (.decp inLen pLen) s = rejected .capacity) ∧
    (∀ u, pLen ≠ 0 → expandedLength s inLen pLen = some u → u % 2 = 1 →
      exec (.decp inLen pLen) s = rejected .operand) ∧
    (∀ u, pLen ≠ 0 → expandedLength s inLen pLen = some u → u % 2 = 0 →
      ∃ t v, exec (.decp inLen pLen) s = .next t ∧ t.response = some ⟨.ok, .chained, v⟩)

/-- An index outside its space is rejected with OPERAND and nothing is read or written (20_memory.md R63). -/
def Obligations.IndexOutsideSpaceIsRejected : Prop :=
  ∀ (s : State) (n : Nat) (v : SoftBit) (b : BitVec 1),
    let rejected : Host.Outcome State Fault Refusal :=
      .next { s with response := some ⟨.operand, s.phase, Config.params.failVal⟩ }
    (Config.params.ibufDepth ≤ n → exec (.ldi n v) s = rejected) ∧
    (Config.params.pbufDepth ≤ n → exec (.ldp n b) s = rejected) ∧
    (Config.params.obufBytes ≤ n → exec (.rdo n) s = rejected) ∧
    (16 ≤ n → exec (.rdm n) s = rejected) ∧
    (Config.params.histLen ≤ n → exec (.rdh n) s = rejected) ∧
    (8 ≤ n → exec (.rdt n) s = rejected)

/-! ## RST and STEP -/

/-- R144: RST brings history, metrics and PHASE to the initial condition and touches nothing else; RST after RST changes
nothing; its word is 0x0100000000000000 and its response word 0. -/
def Obligations.RstRestoresInitialCondition : Prop :=
  encode .rst = 0x0100000000000000 ∧
  ∀ s : State, ∃ t, exec .rst s = .next t ∧ t.Initial ∧ t.phase = .reset ∧
    t.response = some ⟨.ok, .reset, 0⟩ ∧ (Response.mk .ok .reset 0).word = 0 ∧
    SameInputs s t ∧ SameOutput s t ∧ t.host = s.host ∧ exec .rst t = .next t

/-- R150, R151: bm0 is the Manhattan distance to the ideal pair, in [0, 131070]; bm1 = MAXDIST − bm0 never goes below
zero and is exactly the distance to the complemented pair. -/
def Obligations.BranchMetricsAreExactDistances : Prop :=
  ∀ (s0 s1 : SoftBit) (i : Nat), i < 8 →
    let e := romEntry Config.params i
    branchMetric0 Config.params s0 s1 i = softDistance e.ideal0 s0 + softDistance e.ideal1 s1 ∧
    branchMetric0 Config.params s0 s1 i ≤ Config.params.maxDist ∧
    branchMetric1 Config.params s0 s1 i + branchMetric0 Config.params s0 s1 i = Config.params.maxDist ∧
    branchMetric1 Config.params s0 s1 i = softDistance (65535 - e.ideal0) s0 + softDistance (65535 - e.ideal1) s1

/-- R152 to R155, R157: an accepted STEP computes for each half-state i the four candidates, keeps for successors 2i
and 2i + 1 the second candidate with decision bit 1 when first ≥ second and else the first with bit 0, records the 16
bits in HIST at its position, swaps the metric files, enters ACCUM and returns 0; the rest is unchanged. -/
def Obligations.StepSelectsSurvivors : Prop :=
  ∀ (s : State) (n : Nat) (s0 s1 : SoftBit), n < Config.params.histLen → s.phase ≠ .chained →
    ∃ t, exec (.step n s0 s1) s = .next t ∧
      (∀ i, i < 8 →
        let e := romEntry Config.params i
        let bm0 : Config.params.Metric :=
          BitVec.ofNat _ (softDistance e.ideal0 s0 + softDistance e.ideal1 s1)
        let bm1 : Config.params.Metric := BitVec.ofNat _ Config.params.maxDist - bm0
        let m0 := metricAt s.prev i + bm0
        let m1 := metricAt s.prev (i + 8) + bm1
        let m2 := metricAt s.prev i + bm1
        let m3 := metricAt s.prev (i + 8) + bm0
        metricAt t.prev (2 * i) = (if m0.toNat ≥ m1.toNat then m1 else m0) ∧
        (t.readHist n).getLsbD (2 * i) = decide (m0.toNat ≥ m1.toNat) ∧
        metricAt t.prev (2 * i + 1) = (if m2.toNat ≥ m3.toNat then m3 else m2) ∧
        (t.readHist n).getLsbD (2 * i + 1) = decide (m2.toNat ≥ m3.toNat)) ∧
      t.curr = s.prev ∧ (∀ p, p ≠ n → t.readHist p = s.readHist p) ∧
      t.phase = .accum ∧ t.response = some ⟨.ok, .accum, 0⟩ ∧
      SameInputs s t ∧ SameOutput s t ∧ t.host = s.host

/-- R156: butterfly i reads prev[i], prev[i + 8] and the operands only: two states that agree there get the same new
metrics and decision bits at 2i and 2i + 1. -/
def Obligations.ButterfliesAreIndependent : Prop :=
  ∀ (s s' t t' : State) (n n' : Nat) (s0 s1 : SoftBit) (i : Nat), i < 8 →
    metricAt s.prev i = metricAt s'.prev i → metricAt s.prev (i + 8) = metricAt s'.prev (i + 8) →
    exec (.step n s0 s1) s = .next t → t.response = some ⟨.ok, .accum, 0⟩ →
    exec (.step n' s0 s1) s' = .next t' → t'.response = some ⟨.ok, .accum, 0⟩ →
    ∀ k, k = 2 * i ∨ k = 2 * i + 1 →
      metricAt t.prev k = metricAt t'.prev k ∧
      (t.readHist n).getLsbD k = (t'.readHist n').getLsbD k

/-- R122, R142: while no addition wraps, the new metric of a successor k is the least of its two predecessors' metrics,
each plus the distance of the received pair to that transition's ideal pair, and the decision bit names the winner,
predecessor k div 2 + 8 on a tie. -/
def Obligations.StepIsLeastTransition : Prop :=
  ∀ (s : State) (n : Nat) (s0 s1 : SoftBit) (k : Nat), n < Config.params.histLen → s.phase ≠ .chained → k < 16 →
    let b := k % 2 == 1
    let low := (metricAt s.prev (k / 2)).toNat + transitionDistance (k / 2) b s0 s1
    let high := (metricAt s.prev (k / 2 + 8)).toNat + transitionDistance (k / 2 + 8) b s0 s1
    low < 2 ^ 32 → high < 2 ^ 32 →
    ∃ t, exec (.step n s0 s1) s = .next t ∧ (metricAt t.prev k).toNat = min low high ∧
      ((t.readHist n).getLsbD k = true ↔ high ≤ low)

/-! ## CHB -/

/-- R163: an accepted CHB returns the least of the 16 metrics, whatever its operands, and enters CHAINED; history,
metrics and the input buffers are unchanged. -/
def Obligations.ChainbackReturnsLeastMetric : Prop :=
  ∀ (s : State) (n x : Nat), n ≤ Config.params.histLen → x ≤ Config.params.histLen → n ≤ x + 4 →
    ∃ t v, exec (.chb n x) s = .next t ∧ t.response = some ⟨.ok, .chained, v⟩ ∧
      (∀ k, k < 16 → v.toNat ≤ (metricAt s.prev k).toNat) ∧ (∃ k, k < 16 ∧ v.toNat = (metricAt s.prev k).toNat) ∧
      t.phase = .chained ∧ SameTrellis s t ∧ SameInputs s t ∧ t.host = s.host

/-- R160, R161, R162: an accepted CHB clears OBUF whole and walks from state 0 after step n − 1 backward: the decision
bit d p is bit (state after step p) of HIST[p], lands at bit-string index bitLength + 4 − (n − p), and the state before
step p is the surviving predecessor; no other bit is set. -/
def Obligations.ChainbackWalksSurvivorPath : Prop :=
  ∀ (s : State) (n x : Nat), n ≤ Config.params.histLen → x ≤ Config.params.histLen → n ≤ x + 4 →
    ∃ (t : State) (after : Nat → Nat) (d : Nat → Bool), exec (.chb n x) s = .next t ∧
      after n = 0 ∧
      (∀ p, p < n → d p = (s.readHist p).getLsbD (after (p + 1)) ∧
        after p = after (p + 1) / 2 + (if d p then 8 else 0) ∧
        t.obufBit (x + 4 - (n - p)) = d p) ∧
      (∀ j, j < 8 * Config.params.obufBytes → j < x + 4 - n ∨ x + 4 ≤ j → t.obufBit j = false) ∧
      ∀ k, k < Config.params.obufBytes → Mem.written t.obuf k = true

/-- R164: CHB neither changes the history nor the metrics, and two CHBs with the same operands on the same history and
metrics return the same cost and leave the same OBUF. -/
def Obligations.ChainbackRepeats : Prop :=
  ∀ (s s' : State) (n x : Nat), n ≤ Config.params.histLen → x ≤ Config.params.histLen → n ≤ x + 4 →
    s'.hist = s.hist → s'.prev = s.prev →
    ∃ t t', exec (.chb n x) s = .next t ∧ exec (.chb n x) s' = .next t' ∧
      t'.response = t.response ∧ t'.obuf = t.obuf ∧
      t.hist = s.hist ∧ t.prev = s.prev ∧ t'.hist = s.hist ∧ t'.prev = s.prev

/-- R167: CHB with position 0 leaves OBUF all zero and returns the least metric; CHB in PHASE RESET is legal, sets no
bit and returns 0 (from any state that meets the invariant). -/
def Obligations.ChainbackWithoutStepsIsEmpty : Prop :=
  (∀ (s : State) (x : Nat), x ≤ Config.params.histLen →
    ∃ t v, exec (.chb 0 x) s = .next t ∧ t.response = some ⟨.ok, .chained, v⟩ ∧
      (∀ k, k < Config.params.obufBytes → t.readObuf k = 0) ∧
      (∀ k, k < 16 → v.toNat ≤ (metricAt s.prev k).toNat) ∧ ∃ k, k < 16 ∧ v.toNat = (metricAt s.prev k).toNat) ∧
  (∀ (s : State) (n x : Nat), s.Inv → s.phase = .reset →
    n ≤ Config.params.histLen → x ≤ Config.params.histLen → n ≤ x + 4 →
    ∃ t, exec (.chb n x) s = .next t ∧ t.response = some ⟨.ok, .chained, 0⟩ ∧
      ∀ k, k < Config.params.obufBytes → t.readObuf k = 0)

/-! ## DEC -/

/-- R172: an accepted DEC leaves the same state and returns the same response as RST, the STEPs of its soft-bit pairs
and the final CHB. -/
def Obligations.DecodeEqualsItsExpansion : Prop :=
  ∀ (s : State) (len : Nat), len ≤ Config.params.maxLen → len % 2 = 0 →
    ∃ t, exec (.dec len) s = .next t ∧
      runCommands
        ([.rst] ++ (List.range (len / 2)).map (fun k => .step k (s.readIbuf (2 * k)) (s.readIbuf (2 * k + 1))) ++
          [.chb (len / 2) (len / 2)]) s = .next t

/-- R170: what an accepted DEC writes and leaves alone: HIST beyond its steps is cleared, all of OBUF is written, the
input buffers are unchanged, and VAL is the least final metric. -/
def Obligations.DecodeWritesAndFrame : Prop :=
  ∀ (s : State) (len : Nat), len ≤ Config.params.maxLen → len % 2 = 0 →
    ∃ t v, exec (.dec len) s = .next t ∧ t.response = some ⟨.ok, .chained, v⟩ ∧ t.phase = .chained ∧
      (∀ k, k < 16 → v.toNat ≤ (metricAt t.prev k).toNat) ∧ (∃ k, k < 16 ∧ v.toNat = (metricAt t.prev k).toNat) ∧
      (∀ p, len / 2 ≤ p → t.readHist p = 0) ∧
      (∀ k, k < Config.params.obufBytes → Mem.written t.obuf k = true) ∧
      SameInputs s t ∧ t.host = s.host

/-- R39: the response and the OBUF of an accepted DEC are a function of IBUF[0..len−1] alone, those of an accepted DECP
of IBUF[0..inLen−1] and PBUF[0..pLen−1] alone; so are the metrics and the history. -/
def Obligations.DecodeDependsOnItsInputAlone : Prop :=
  (∀ (s s' : State) (len : Nat), len ≤ Config.params.maxLen → len % 2 = 0 →
    (∀ k, k < len → s'.readIbuf k = s.readIbuf k) →
    ∃ t t', exec (.dec len) s = .next t ∧ exec (.dec len) s' = .next t' ∧
      t'.response = t.response ∧ (∀ k, k < Config.params.obufBytes → t'.readObuf k = t.readObuf k) ∧
      t'.prev = t.prev ∧ t'.hist = t.hist ∧ ∀ p, len / 2 ≤ p → t.readHist p = 0) ∧
  (∀ (s s' t : State) (inLen pLen : Nat) (v : BitVec 32), pLen ≠ 0 →
    (∀ k, k < inLen → s'.readIbuf k = s.readIbuf k) → (∀ k, k < pLen → s'.readPbuf k = s.readPbuf k) →
    exec (.decp inLen pLen) s = .next t → t.response = some ⟨.ok, .chained, v⟩ →
    ∃ t', exec (.decp inLen pLen) s' = .next t' ∧ t'.response = t.response ∧
      (∀ k, k < Config.params.obufBytes → t'.readObuf k = t.readObuf k) ∧ t'.prev = t.prev ∧ t'.hist = t.hist)

/-- R173: DEC 0 is accepted: it resets, performs no step, clears OBUF and returns cost 0 with PHASE CHAINED. -/
def Obligations.EmptyDecodeIsAccepted : Prop :=
  ∀ s : State, ∃ t, exec (.dec 0) s = .next t ∧ t.Initial ∧ t.phase = .chained ∧
    t.response = some ⟨.ok, .chained, 0⟩ ∧ ∀ k, k < Config.params.obufBytes → t.readObuf k = 0

/-- The zero-noise round trip (R174b with R165): for every input bit list of at most HIST_LEN bits that ends in four
zeros, DEC of the reference encoder's ideal soft bits returns cost 0, puts bit k at bit-string index 8 + k, and sets no
other bit. -/
def Obligations.ZeroNoiseRoundTrip : Prop :=
  ∀ (s : State) (bits : List Bool), bits.length ≤ Config.params.histLen →
    (∀ k, k < bits.length → bits.length ≤ k + 4 → bits.getD k false = false) →
    (∀ k, k < 2 * bits.length → s.readIbuf k = (referenceEncode 0 bits).getD k 0) →
    ∃ t, exec (.dec (2 * bits.length)) s = .next t ∧ t.response = some ⟨.ok, .chained, 0⟩ ∧
      ∀ j, j < 8 * Config.params.obufBytes →
        t.obufBit j = (if 8 ≤ j ∧ j < bits.length + 4 then bits.getD (j - 8) false else false)

/-- R20, R163 with R158: DEC finds the least cost: its VAL is the least distance between the input soft bits and the
reference encoder's output, over all input bit lists of len/2 bits that start in state 0. -/
def Obligations.DecodeCostIsLeastPathDistance : Prop :=
  ∀ (s : State) (n : Nat), n ≤ Config.params.histLen →
    ∃ t v, exec (.dec (2 * n)) s = .next t ∧ t.response = some ⟨.ok, .chained, v⟩ ∧
      (∀ bits : List Bool, bits.length = n → v.toNat ≤ pathDistance s.readIbuf 0 bits) ∧
      ∃ bits : List Bool, bits.length = n ∧ v.toNat = pathDistance s.readIbuf 0 bits

/-- R165 with R158b, R166: the bits DEC leaves in OBUF are those of a bit list that ends in state 0 and has the least
distance among all of its length that start and end there: bit k at bit-string index 8 + k for all but the last four,
and every other bit 0. -/
def Obligations.DecodedBitsAreLeastFlushedPath : Prop :=
  ∀ (s : State) (n : Nat), n ≤ Config.params.histLen →
    ∃ (t : State) (best : List Bool), exec (.dec (2 * n)) s = .next t ∧
      best.length = n ∧ encoderState 0 best = 0 ∧
      (∀ bits : List Bool, bits.length = n → encoderState 0 bits = 0 →
        pathDistance s.readIbuf 0 best ≤ pathDistance s.readIbuf 0 bits) ∧
      ∀ j, j < 8 * Config.params.obufBytes →
        t.obufBit j = (if 8 ≤ j ∧ j < n + 4 then best.getD (j - 8) false else false)

/-! ## DECP -/

/-- R192, R193: the expanded length is the first length at which all inLen soft bits have been consumed at kept
positions, OVERFLOW when MAX_LEN positions do not suffice; the expansion holds the next input soft bit at each kept
position and the erasure value at each omitted one. -/
def Obligations.ExpansionFollowsPattern : Prop :=
  ∀ (s : State) (inLen pLen : Nat), pLen ≠ 0 →
    (∀ u, expandedLength s inLen pLen = some u ↔
      u ≤ Config.params.maxLen ∧ keptBefore s pLen u = inLen ∧ ∀ k, k < u → keptBefore s pLen k < inLen) ∧
    (expandedLength s inLen pLen = none ↔ keptBefore s pLen Config.params.maxLen < inLen) ∧
    (∀ u, (expansion s pLen u).length = u) ∧
    (∀ u k, k < u → (expansion s pLen u).getD k 0 =
      if s.readPbuf (k % pLen) = 1 then s.readIbuf (keptBefore s pLen k) else Config.params.erasureBit)

/-- R191, R196: an accepted DECP leaves the state that `DEC u` leaves on the expansion, with IBUF as it was, and returns
its cost less (u − inLen)·ERASURE modulo 2^32. -/
def Obligations.PuncturedDecodeIsDecodeOfExpansion : Prop :=
  ∀ (s : State) (inLen pLen u : Nat) (e : Mem 16), pLen ≠ 0 → expandedLength s inLen pLen = some u → u % 2 = 0 →
    (∀ k, k < u → Mem.lookup e k = some ((expansion s pLen u).getD k 0)) →
    ∃ t v, exec (.dec u) { s with ibuf := e } = .next t ∧ t.response = some ⟨.ok, .chained, v⟩ ∧
      exec (.decp inLen pLen) s = .next
        { t with
          ibuf := s.ibuf
          response := some ⟨.ok, .chained, v - BitVec.ofNat 32 ((u - inLen) * Config.params.erasure)⟩ }

/-- R200: a pattern of all ones inserts nothing, u = inLen, and `DECP inLen, pLen` behaves exactly as `DEC inLen`, its
rejections too. -/
def Obligations.AllKeptPatternIsPlainDecode : Prop :=
  ∀ (s : State) (inLen pLen : Nat), pLen ≠ 0 → (∀ p, p < pLen → s.readPbuf p = 1) →
    (inLen ≤ Config.params.maxLen → expandedLength s inLen pLen = some inLen) ∧
    ∃ t, exec (.decp inLen pLen) s = .next t ∧ exec (.dec inLen) s = .next t

/-- R197: the correction never goes below zero: every final metric is at least ERASURE times the number of erasures, and
the returned value plus that bias is the least metric, exactly. -/
def Obligations.CorrectedCostNeverWraps : Prop :=
  ∀ (s : State) (inLen pLen u : Nat), pLen ≠ 0 → expandedLength s inLen pLen = some u → u % 2 = 0 →
    ∃ t v, exec (.decp inLen pLen) s = .next t ∧ t.response = some ⟨.ok, .chained, v⟩ ∧
      (∀ k, k < 16 → v.toNat + (u - inLen) * Config.params.erasure ≤ (metricAt t.prev k).toNat) ∧
      ∃ k, k < 16 ∧ v.toNat + (u - inLen) * Config.params.erasure = (metricAt t.prev k).toNat

/-! ## SLC and RDT -/

/-- R102, R103, R107: SLC returns B1 in VAL[31:16] and B0 in VAL[15:0], the two curves with floor division, for every
sample, and changes nothing but the response. -/
def Obligations.SlicerFollowsItsCurves : Prop :=
  ∀ (s : State) (x : Int), -32768 ≤ x → x ≤ 32767 →
    let l0 := Config.params.level0
    let l1 := Config.params.level1
    let l2 := Config.params.level2
    let l3 := Config.params.level3
    ∃ b1 b0 : SoftBit,
      exec (.slc x) s = .next { s with response := some ⟨.ok, s.phase, b1 ++ b0⟩ } ∧
      (l2 ≤ x → b1 = 0) ∧ (x ≤ l1 → b1 = 65535) ∧
      (l1 < x → x < l2 → b1.toNat = (65535 * (l2 - x).toNat) / (l2 - l1).toNat) ∧
      (l3 ≤ x → b0 = 65535) ∧
      (l2 ≤ x → x < l3 → b0.toNat = (65535 * (x - l2).toNat) / (l3 - l2).toNat) ∧
      (l1 ≤ x → x < l2 → b0 = 0) ∧
      (l0 ≤ x → x < l1 → b0.toNat = (65535 * (l1 - x).toNat) / (l1 - l0).toNat) ∧
      (x < l0 → b0 = 65535)

/-- R105: the four levels give the four ideal pairs; above L3 the pair stays (0, 65535), below L0 (65535, 65535). -/
def Obligations.SlicerCalibrationPoints : Prop :=
  ∀ s : State,
    let answers (x : Int) (b1 b0 : SoftBit) : Prop :=
      exec (.slc x) s = .next { s with response := some ⟨.ok, s.phase, b1 ++ b0⟩ }
    answers Config.params.level3 0 65535 ∧ answers Config.params.level2 0 0 ∧
    answers Config.params.level1 65535 0 ∧ answers Config.params.level0 65535 65535 ∧
    (∀ x, Config.params.level3 < x → answers x 0 65535) ∧
    (∀ x, x < Config.params.level0 → answers x 65535 65535)

/-- R101: a sample is a fixed-point number with SAMPLE_FRAC fractional bits in SAMPLE_W bits, from −8 to 32767/4096, and
the levels stand for −3, −1, +1 and +3. The numbers are the spec's decided defaults (log 3). -/
def Obligations.SampleIsFixedPoint : Prop :=
  sampleValue Config.params Config.params.level0 = -3 ∧ sampleValue Config.params Config.params.level1 = -1 ∧
  sampleValue Config.params Config.params.level2 = 1 ∧ sampleValue Config.params Config.params.level3 = 3 ∧
  ∀ x : Int, (Instr.slc x).wellFormed = true →
    -8 ≤ sampleValue Config.params x ∧ sampleValue Config.params x ≤ 32767 / 4096

/-- R124: RDT returns idealBit0·65536 + idealBit1 of entry N ≤ 7 and rejects N > 7 with OPERAND; nothing but the response
changes. -/
def Obligations.RomReadReturnsEntry : Prop :=
  ∀ (s : State) (n : Nat),
    (n ≤ 7 → ∃ v : BitVec 32,
      exec (.rdt n) s = .next { s with response := some ⟨.ok, s.phase, v⟩ } ∧
      v.toNat = (romEntry Config.params n).ideal0.toNat * 65536 + (romEntry Config.params n).ideal1.toNat) ∧
    (7 < n → exec (.rdt n) s = .next { s with response := some ⟨.operand, s.phase, Config.params.failVal⟩ })

/-- The table of R121 in its closed form, for b0, b1, b2 the bits of i: idealBit0 = 65535·b2 and
idealBit1 = 65535·(b0 XOR b1). The spec marks the table as general knowledge (log 3). -/
def Obligations.RomHoldsTheM17Table : Prop :=
  ∀ i, i < 8 →
    (romEntry Config.params i).ideal0.toNat = 65535 * (i / 4) ∧
    (romEntry Config.params i).ideal1.toNat = 65535 * ((i % 2 + i / 2 % 2) % 2)

/-! ## Buffer access and debug reads -/

/-- R210: LDI stores its value at IBUF[N], keeps every other element and everything else, and returns 0; an index
outside IBUF is rejected with OPERAND. -/
def Obligations.LdiStoresOneElement : Prop :=
  ∀ (s : State) (n : Nat) (v : SoftBit),
    (n < Config.params.ibufDepth → ∃ t, exec (.ldi n v) s = .next t ∧
      t.readIbuf n = v ∧ Mem.written t.ibuf n = true ∧
      (∀ j, j ≠ n → t.readIbuf j = s.readIbuf j ∧ Mem.written t.ibuf j = Mem.written s.ibuf j) ∧
      SameTrellis s t ∧ t.phase = s.phase ∧ t.pbuf = s.pbuf ∧ SameOutput s t ∧ t.host = s.host ∧
      t.response = some ⟨.ok, s.phase, 0⟩) ∧
    (Config.params.ibufDepth ≤ n →
      exec (.ldi n v) s = .next { s with response := some ⟨.operand, s.phase, Config.params.failVal⟩ })

/-- R211: LDP stores its bit at PBUF[N], keeps every other entry and everything else, and returns 0; an index outside
PBUF is rejected with OPERAND. -/
def Obligations.LdpStoresOneBit : Prop :=
  ∀ (s : State) (n : Nat) (b : BitVec 1),
    (n < Config.params.pbufDepth → ∃ t, exec (.ldp n b) s = .next t ∧
      t.readPbuf n = b ∧ Mem.written t.pbuf n = true ∧
      (∀ j, j ≠ n → t.readPbuf j = s.readPbuf j ∧ Mem.written t.pbuf j = Mem.written s.pbuf j) ∧
      SameTrellis s t ∧ t.phase = s.phase ∧ t.ibuf = s.ibuf ∧ SameOutput s t ∧ t.host = s.host ∧
      t.response = some ⟨.ok, s.phase, 0⟩) ∧
    (Config.params.pbufDepth ≤ n →
      exec (.ldp n b) s = .next { s with response := some ⟨.operand, s.phase, Config.params.failVal⟩ })

/-- R212, R213, R214, R215: RDO returns the output byte, RDM the metric of `prev`, RDH the history word, each
zero-extended, RDS HIST_LEN·65536 + PHASE; nothing but the response changes. -/
def Obligations.DebugReadsReturnState : Prop :=
  ∀ (s : State) (n : Nat),
    let returns (i : Instr) (val : Nat) : Prop := ∃ v : BitVec 32,
      exec i s = .next { s with response := some ⟨.ok, s.phase, v⟩ } ∧ v.toNat = val
    (n < Config.params.obufBytes → returns (.rdo n) (s.readObuf n).toNat) ∧
    (n < 16 → returns (.rdm n) (metricAt s.prev n).toNat) ∧
    (n < Config.params.histLen → returns (.rdh n) (s.readHist n).toNat) ∧
    returns .rds (Config.params.histLen * 65536 + match s.phase with
      | .reset => 0
      | .accum => 1
      | .chained => 2)

/-! ## Whole-machine rules -/

/-- R55: SLC, RDT, RDO, RDM, RDH and RDS change no state and may be repeated with the same result. -/
def Obligations.ReadsHaveNoSideEffect : Prop :=
  ∀ (i : Instr) (s t : State),
    (match i with
      | .slc _ | .rdt _ | .rdo _ | .rdm _ | .rdh _ | .rds => True
      | .rst | .step _ _ _ | .chb _ _ | .dec _ | .decp _ _ | .ldi _ _ | .ldp _ _ => False) →
    exec i s = .next t → OnlyResponse s t ∧ exec i t = .next t

/-- R216, R195, R50: metrics and history change only through RST, STEP, DEC and DECP, IBUF only through LDI, PBUF only
through LDP, OBUF only through CHB, DEC and DECP; no command touches the host's later actions. -/
def Obligations.EachSpaceHasItsWriters : Prop :=
  ∀ (i : Instr) (s t : State), exec i s = .next t →
    (match i with
      | .rst | .step _ _ _ | .dec _ | .decp _ _ => True
      | .chb _ _ | .slc _ | .rdt _ | .ldi _ _ | .ldp _ _ | .rdo _ | .rdm _ | .rdh _ | .rds => SameTrellis s t) ∧
    (match i with
      | .ldi _ _ => True
      | .rst | .step _ _ _ | .chb _ _ | .dec _ | .decp _ _ | .slc _ | .rdt _ | .ldp _ _ | .rdo _ | .rdm _ | .rdh _
      | .rds => t.ibuf = s.ibuf) ∧
    (match i with
      | .ldp _ _ => True
      | .rst | .step _ _ _ | .chb _ _ | .dec _ | .decp _ _ | .slc _ | .rdt _ | .ldi _ _ | .rdo _ | .rdm _ | .rdh _
      | .rds => t.pbuf = s.pbuf) ∧
    (match i with
      | .chb _ _ | .dec _ | .decp _ _ => True
      | .rst | .step _ _ _ | .slc _ | .rdt _ | .ldi _ _ | .ldp _ _ | .rdo _ | .rdm _ | .rdh _ | .rds =>
        t.obuf = s.obuf) ∧
    t.host = s.host ∧ t.epoch = s.epoch

/-- R28: PHASE is written only as its table says: RST enters RESET, an accepted STEP enters ACCUM, an accepted CHB, DEC or
DECP enters CHAINED, and everything else leaves it. -/
def Obligations.PhaseFollowsItsTable : Prop :=
  ∀ (i : Instr) (s t : State) (r : Response), exec i s = .next t → t.response = some r →
    t.phase =
      if r.err = .ok then
        match i with
        | .rst => .reset
        | .step _ _ _ => .accum
        | .chb _ _ | .dec _ | .decp _ _ => .chained
        | .slc _ | .rdt _ | .ldi _ _ | .ldp _ _ | .rdo _ | .rdm _ | .rdh _ | .rds => s.phase
      else s.phase

/-- R64, R262: a step whose command reads only elements written since hardware reset does not depend on the unspecified
contents: with any other free values (another `epoch`) it does the same (log 1: the free values are the model's form). -/
def Obligations.WrittenReadsHideFreeValues : Prop :=
  ∀ (s : State) (epoch : Nat), nextActionSafe s = true →
    ∃ t t', step s = .next t ∧ step { s with epoch := epoch } = .next t' ∧ t' = { t with epoch := t'.epoch }
end

