-- ==== Sys2Proof/Laws/Arithmetic.lean ====
section
/-! SUPPORT. The bit-field and arithmetic helpers: the bits of a decision word, the least metric, the exact absolute
difference, entries of a metric file, and the winner of a comparison. -/

namespace Sys2Proof.Machine

variable {w : Nat}

theorem natOfBits_lt (f : Nat → Bool) (n : Nat) : natOfBits f n < 2 ^ n := by
  induction n with
  | zero => simp [natOfBits]
  | succ n ih => simp only [natOfBits, Nat.pow_succ]; split <;> omega

theorem testBit_natOfBits (f : Nat → Bool) (n k : Nat) : (natOfBits f n).testBit k = (decide (k < n) && f k) := by
  induction n with
  | zero => simp [natOfBits]
  | succ n ih =>
    have hlt := natOfBits_lt f n
    simp only [natOfBits]
    by_cases hf : f n
    · simp only [hf, if_true]
      rw [Nat.add_comm]
      rcases Nat.lt_trichotomy k n with h | h | h
      · rw [Nat.testBit_two_pow_add_gt h, ih]; simp [h, Nat.lt_succ_of_lt h]
      · subst h; rw [Nat.testBit_two_pow_add_eq, ih]; simp [hf]
      · rw [Nat.testBit_lt_two_pow]
        · simp; omega
        · have : 2 ^ (n + 1) ≤ 2 ^ k := Nat.pow_le_pow_right (by decide) h
          rw [Nat.pow_succ] at this; omega
    · simp only [hf, Bool.false_eq_true, if_false, Nat.add_zero, ih]
      by_cases h : k = n
      · subst h; simp [hf]
      · have : (k < n) ↔ (k < n + 1) := by omega
        simp [this]

/-- Bit k of the decision word is the decision of successor k (42_viterbi_decoder.md R154). -/
@[simp] theorem getLsbD_wordOfBits (f : Nat → Bool) (k : Nat) :
    (wordOfBits f).getLsbD k = (decide (k < 16) && f k) := by
  have := natOfBits_lt f 16
  simp only [wordOfBits, BitVec.getLsbD, BitVec.toNat_ofNat, Nat.mod_eq_of_lt this, testBit_natOfBits]

@[simp] theorem getElem_wordOfBits (f : Nat → Bool) (k : Nat) (h : k < 16) : (wordOfBits f)[k] = f k := by
  rw [← BitVec.getLsbD_eq_getElem, getLsbD_wordOfBits, decide_eq_true h, Bool.true_and]

theorem metricAt_eq_getElem (v : Vector (BitVec w) 16) {k : Nat} (h : k < 16) : metricAt v k = v[k] := by
  simp [metricAt, h]

@[simp] theorem metricAt_ofFn (f : Fin 16 → BitVec w) (k : Nat) :
    metricAt (Vector.ofFn f) k = if h : k < 16 then f ⟨k, h⟩ else 0 := by
  split
  · simp [metricAt, *]
  · simp [metricAt, *]

theorem absdiff_eq_softDistance (a b : SoftBit) : absdiff a.toNat b.toNat = softDistance a b := by
  unfold absdiff softDistance; split <;> omega

/-- A ramp stays in the range of a SoftBit wherever a curve uses it (40_soft_bit_slicer.md R104). -/
theorem ramp_bounds {d span : Int} (h0 : 0 ≤ d) (h : d ≤ span) (hs : 0 < span) :
    0 ≤ ramp d span ∧ ramp d span ≤ 65535 := by
  have hm : ((Config.softMax : Nat) : Int) = 65535 := rfl
  unfold ramp
  rw [hm]
  refine ⟨Int.ediv_nonneg (by omega) (by omega), ?_⟩
  have : 65535 * d ≤ 65535 * span := by omega
  calc 65535 * d / span ≤ 65535 * span / span := Int.ediv_le_ediv hs this
    _ = 65535 := Int.mul_ediv_cancel _ (by omega)

/-- Every step of the fold keeps the lesser of two values. -/
theorem foldl_min_spec (l : List (BitVec w)) (a : BitVec w) :
    let m := l.foldl (fun a b => if b < a then b else a) a
    m ≤ a ∧ (∀ b ∈ l, m ≤ b) ∧ (m = a ∨ m ∈ l) := by
  induction l generalizing a with
  | nil => simp
  | cons b l ih =>
    simp only [List.foldl_cons, List.mem_cons]
    have h := ih (if b < a then b else a)
    refine ⟨?_, ?_, ?_⟩
    · refine BitVec.le_trans h.1 ?_
      split
      · next hb => exact BitVec.le_of_lt hb
      · exact BitVec.le_refl a
    · rintro c (rfl | hc)
      · refine BitVec.le_trans h.1 ?_
        split
        · exact BitVec.le_refl c
        · next hb => exact BitVec.not_lt.mp hb
      · exact h.2.1 c hc
    · rcases h.2.2 with h | h
      · rw [h]; split <;> simp
      · exact .inr (.inr h)

theorem metricAt_mem {v : Vector (BitVec w) 16} {k : Nat} (h : k < 16) : metricAt v k ∈ v.toList := by
  simp [metricAt_eq_getElem v h]

/-- The cost is at most every metric (42_viterbi_decoder.md R163). -/
theorem minMetric_le (v : Vector (BitVec w) 16) {k : Nat} (h : k < 16) : minMetric v ≤ metricAt v k :=
  (foldl_min_spec v.toList (metricAt v 0)).2.1 _ (metricAt_mem h)

/-- The cost is one of the metrics (R163). -/
theorem minMetric_attained (v : Vector (BitVec w) 16) : ∃ k, k < 16 ∧ minMetric v = metricAt v k := by
  rcases (foldl_min_spec v.toList (metricAt v 0)).2.2 with h | h
  · exact ⟨0, by decide, h⟩
  · obtain ⟨k, hk, he⟩ := List.getElem_of_mem h
    have hk' : k < 16 := by simpa using hk
    refine ⟨k, hk', ?_⟩
    rw [metricAt_eq_getElem v hk']
    simpa [minMetric] using he.symm

/-- The winner's metric is the lesser candidate, and the decision bit says whether the second one won (R153). -/
theorem select_spec (first second : BitVec w) :
    (select first second).1 = decide (second ≤ first) ∧
    (select first second).2 = if second ≤ first then second else first := by
  unfold select; split <;> simp [*]

/-- The winner's metric is the lesser of the two numbers. -/
theorem toNat_select (first second : BitVec w) : (select first second).2.toNat = min first.toNat second.toNat := by
  unfold select
  split
  · next h => rw [BitVec.le_def] at h; exact (Nat.min_eq_right h).symm
  · next h => rw [BitVec.le_def] at h; exact (Nat.min_eq_left (Nat.le_of_lt (Nat.lt_of_not_le h))).symm

/-- An entry of a checked ROM holds 0 or 65535 in both places (41_trellis_rom.md R120). -/
theorem romEntry_ideal_of_romIsIdeal {cfg : Params} (h : cfg.RomIsIdeal) {i : Nat} (hi : i < 8) :
    ((romEntry cfg i).ideal0 = 0 ∨ (romEntry cfg i).ideal0 = 65535) ∧
      ((romEntry cfg i).ideal1 = 0 ∨ (romEntry cfg i).ideal1 = 65535) :=
  h _ (by simp [romEntry, hi])

/-- Every ideal value of the default table is 0 or 65535 (41_trellis_rom.md R120). -/
theorem romEntry_ideal (i : Nat) :
    ((romEntry Config.params i).ideal0 = 0 ∨ (romEntry Config.params i).ideal0 = 65535) ∧
      ((romEntry Config.params i).ideal1 = 0 ∨ (romEntry Config.params i).ideal1 = 65535) := by
  by_cases h : i < 8
  · exact romEntry_ideal_of_romIsIdeal (by decide) h
  · have : romEntry Config.params i = ⟨0, 0⟩ := by simp [romEntry, h]
    simp [this]

/-! ## Numbers that depend on the configuration -/

theorem params_histLen : Config.params.histLen = 244 := rfl
theorem params_maxDist : Config.params.maxDist = 131070 := rfl
theorem params_failCost : Config.params.failCost = 4294967295 := rfl
theorem params_initSentinel : Config.params.initSentinel = 1073741824 := rfl
theorem params_metricW : Config.params.metricW = 32 := rfl
theorem params_erasure : Config.params.erasure = 32767 := rfl
theorem params_pbufDepth : Config.params.pbufDepth = 255 := rfl
theorem params_sampleW : Config.params.sampleW = 16 := rfl
theorem params_maxLen : Config.params.maxLen = 488 := rfl
theorem params_ibufDepth : Config.params.ibufDepth = 488 := rfl
theorem params_obufBytes : Config.params.obufBytes = 31 := rfl

@[simp] theorem two_pow_metricW : 2 ^ Config.params.metricW = 4294967296 := rfl

/-- A metric at the spec's configuration is a 32-bit number: the bound that `omega` needs. -/
theorem toNat_metric_lt (m : Config.params.Metric) : m.toNat < 4294967296 := m.isLt

@[simp] theorem toNat_addMetric (a b : BitVec w) : (addMetric a b).toNat = (a.toNat + b.toNat) % 2 ^ w :=
  BitVec.toNat_add a b

@[simp] theorem toNat_subMetric (a b : BitVec w) : (subMetric a b).toNat = (2 ^ w - b.toNat + a.toNat) % 2 ^ w :=
  BitVec.toNat_sub a b

/-- The VAL of a metric is the metric's number, where METRIC_W fits VAL (30_encoding.md R73). -/
theorem toNat_metricVal (m : BitVec w) (h : w ≤ 32) : (metricVal m).toNat = m.toNat := by
  have := Nat.pow_le_pow_right (n := 2) (by decide) h
  rw [metricVal, BitVec.toNat_setWidth, Nat.mod_eq_of_lt (Nat.lt_of_lt_of_le m.isLt this)]

/-- The distance to any ideal pair is at most 2 · SOFT_MAX (42_viterbi_decoder.md R150). -/
theorem branchMetric0_le (cfg : Params) (s0 s1 : SoftBit) (i : Nat) : branchMetric0 cfg s0 s1 i ≤ 131070 := by
  have h := s0.isLt; have h' := s1.isLt
  have g := (romEntry cfg i).ideal0.isLt; have g' := (romEntry cfg i).ideal1.isLt
  unfold branchMetric0 absdiff
  split <;> split <;> omega

theorem branchMetric1_le (cfg : Params) (s0 s1 : SoftBit) (i : Nat) : branchMetric1 cfg s0 s1 i ≤ cfg.maxDist :=
  Nat.sub_le _ _

end Sys2Proof.Machine
end

