-- ==== Sys2Proof/Laws/Encoding.lean ====
section
/-! SUPPORT. The laws of the field layout (30_encoding.md R70, R71) and of the field helpers. -/

namespace Sys2Proof

/-- The fields fit their widths (R70). -/
abbrev Fields.InRange (f : Fields) : Prop := f.opc < 256 ∧ f.pl < 256 ∧ f.n < 65536 ∧ f.x < 65536 ∧ f.y < 65536

/-- Cutting a laid-out word gives its fields back. -/
theorem fieldsOf_wordOf {f : Fields} (h : f.InRange) : fieldsOf (wordOf f) = f := by
  obtain ⟨opc, pl, n, x, y⟩ := f
  obtain ⟨h1, h2, h3, h4, h5⟩ := h
  simp only [fieldsOf, wordOf, BitVec.toNat_ofNat, Fields.mk.injEq] at *
  refine ⟨?_, ?_, ?_, ?_, ?_⟩ <;> omega

/-- Laying out the fields of a word gives the word back. -/
theorem wordOf_fieldsOf (w : Word64) : wordOf (fieldsOf w) = w := by
  apply BitVec.eq_of_toNat_eq
  have := w.isLt
  simp only [wordOf, fieldsOf, BitVec.toNat_ofNat]
  omega

theorem inRange_fieldsOf (w : Word64) : (fieldsOf w).InRange := by
  have := w.isLt
  simp only [Fields.InRange, fieldsOf]
  omega

theorem fits16_iff {v : Nat} : fits16 v = true ↔ v < 65536 := by simp [fits16]

theorem fits8_iff {v : Nat} : fits8 v = true ↔ v < 256 := by simp [fits8]

/-- Sign extension undoes the two's-complement field (R75). -/
theorem sext_emod {w : Nat} {v : Int} (hw : 1 ≤ w) (h : FitsSigned w v) : sext w (v % 2 ^ w).toNat = v := by
  obtain ⟨w, rfl⟩ := Nat.exists_eq_add_of_le' hw
  simp only [FitsSigned, Nat.add_sub_cancel] at h
  have hz : (2 : Int) ^ (w + 1) = 2 ^ w + 2 ^ w := by rw [Int.pow_succ]; omega
  have hn : (2 : Nat) ^ (w + 1) = 2 ^ w + 2 ^ w := by rw [Nat.pow_succ]; omega
  have hc : ((2 ^ w : Nat) : Int) = 2 ^ w := by norm_cast
  simp only [sext, Nat.add_sub_cancel]
  by_cases h0 : 0 ≤ v
  · rw [Int.emod_eq_of_lt h0 (by omega), if_pos (by omega)]; omega
  · have : v % 2 ^ (w + 1) = v + 2 ^ (w + 1) := by
      rw [← Int.add_emod_right, Int.emod_eq_of_lt (by omega) (by omega)]
    rw [this, if_neg (by omega)]; omega

/-- The two's-complement field of a sample fits SAMPLE_W bits. -/
theorem emod_toNat_lt (w : Nat) (v : Int) : (v % 2 ^ w).toNat < 2 ^ w := by
  have h : (0 : Int) < 2 ^ w := by positivity
  have h2 : ((2 ^ w : Nat) : Int) = 2 ^ w := by norm_cast
  have := Int.emod_lt_of_pos v h
  omega

theorem ifZero_eq_ok {opc : Nat} {unused : List Nat} {i j : Instr} :
    ifZero opc unused i = .ok j ↔ (∀ v ∈ unused, v = 0) ∧ i = j := by
  unfold ifZero
  split
  · next h => simp only [List.all_eq_true, beq_iff_eq] at h; simp; exact fun _ => h
  · next h => simp only [List.all_eq_true, beq_iff_eq] at h; simp; intro h'; exact absurd h' h

end Sys2Proof
end

