-- ==== Sys2Proof/Laws/State.lean ====
section
/-! SUPPORT. One lemma per field per update of the state, true by unfolding, so that no proof unfolds a record update;
then the reads of an updated state. -/

namespace Sys2Proof.Machine

variable {cfg : Params}

/-! ## `State.reply` -/

@[simp] theorem State.reply_prev (s : State cfg) (v : BitVec 32) : (s.reply v).prev = s.prev := rfl
@[simp] theorem State.reply_curr (s : State cfg) (v : BitVec 32) : (s.reply v).curr = s.curr := rfl
@[simp] theorem State.reply_hist (s : State cfg) (v : BitVec 32) : (s.reply v).hist = s.hist := rfl
@[simp] theorem State.reply_phase (s : State cfg) (v : BitVec 32) : (s.reply v).phase = s.phase := rfl
@[simp] theorem State.reply_ibuf (s : State cfg) (v : BitVec 32) : (s.reply v).ibuf = s.ibuf := rfl
@[simp] theorem State.reply_pbuf (s : State cfg) (v : BitVec 32) : (s.reply v).pbuf = s.pbuf := rfl
@[simp] theorem State.reply_obuf (s : State cfg) (v : BitVec 32) : (s.reply v).obuf = s.obuf := rfl
@[simp] theorem State.reply_host (s : State cfg) (v : BitVec 32) : (s.reply v).host = s.host := rfl
@[simp] theorem State.reply_response (s : State cfg) (v : BitVec 32) : (s.reply v).response = some ⟨.ok, s.phase, v⟩ := rfl
@[simp] theorem State.reply_epoch (s : State cfg) (v : BitVec 32) : (s.reply v).epoch = s.epoch := rfl

/-! ## `State.reject` -/

@[simp] theorem State.reject_prev (s : State cfg) (e : ErrCode) : (s.reject e).prev = s.prev := rfl
@[simp] theorem State.reject_curr (s : State cfg) (e : ErrCode) : (s.reject e).curr = s.curr := rfl
@[simp] theorem State.reject_hist (s : State cfg) (e : ErrCode) : (s.reject e).hist = s.hist := rfl
@[simp] theorem State.reject_phase (s : State cfg) (e : ErrCode) : (s.reject e).phase = s.phase := rfl
@[simp] theorem State.reject_ibuf (s : State cfg) (e : ErrCode) : (s.reject e).ibuf = s.ibuf := rfl
@[simp] theorem State.reject_pbuf (s : State cfg) (e : ErrCode) : (s.reject e).pbuf = s.pbuf := rfl
@[simp] theorem State.reject_obuf (s : State cfg) (e : ErrCode) : (s.reject e).obuf = s.obuf := rfl
@[simp] theorem State.reject_host (s : State cfg) (e : ErrCode) : (s.reject e).host = s.host := rfl
@[simp] theorem State.reject_response (s : State cfg) (e : ErrCode) : (s.reject e).response = some ⟨e, s.phase, cfg.failVal⟩ := rfl
@[simp] theorem State.reject_epoch (s : State cfg) (e : ErrCode) : (s.reject e).epoch = s.epoch := rfl

/-! ## `State.resetDecoder` -/

@[simp] theorem State.resetDecoder_prev (s : State cfg) : s.resetDecoder.prev = initMetrics cfg := rfl
@[simp] theorem State.resetDecoder_curr (s : State cfg) : s.resetDecoder.curr = Vector.ofFn fun _ => 0 := rfl
@[simp] theorem State.resetDecoder_hist (s : State cfg) : s.resetDecoder.hist = [] := rfl
@[simp] theorem State.resetDecoder_phase (s : State cfg) : s.resetDecoder.phase = .reset := rfl
@[simp] theorem State.resetDecoder_ibuf (s : State cfg) : s.resetDecoder.ibuf = s.ibuf := rfl
@[simp] theorem State.resetDecoder_pbuf (s : State cfg) : s.resetDecoder.pbuf = s.pbuf := rfl
@[simp] theorem State.resetDecoder_obuf (s : State cfg) : s.resetDecoder.obuf = s.obuf := rfl
@[simp] theorem State.resetDecoder_host (s : State cfg) : s.resetDecoder.host = s.host := rfl
@[simp] theorem State.resetDecoder_response (s : State cfg) : s.resetDecoder.response = s.response := rfl
@[simp] theorem State.resetDecoder_epoch (s : State cfg) : s.resetDecoder.epoch = s.epoch := rfl

/-! ## `State.hardReset` -/

@[simp] theorem State.hardReset_prev (s : State cfg) : s.hardReset.prev = initMetrics cfg := rfl
@[simp] theorem State.hardReset_curr (s : State cfg) : s.hardReset.curr = Vector.ofFn fun _ => 0 := rfl
@[simp] theorem State.hardReset_hist (s : State cfg) : s.hardReset.hist = [] := rfl
@[simp] theorem State.hardReset_phase (s : State cfg) : s.hardReset.phase = .reset := rfl
@[simp] theorem State.hardReset_ibuf (s : State cfg) : s.hardReset.ibuf = [] := rfl
@[simp] theorem State.hardReset_pbuf (s : State cfg) : s.hardReset.pbuf = [] := rfl
@[simp] theorem State.hardReset_obuf (s : State cfg) : s.hardReset.obuf = [] := rfl
@[simp] theorem State.hardReset_host (s : State cfg) : s.hardReset.host = s.host := rfl
@[simp] theorem State.hardReset_response (s : State cfg) : s.hardReset.response = none := rfl
@[simp] theorem State.hardReset_epoch (s : State cfg) : s.hardReset.epoch = s.epoch + 1 := rfl

/-! ## `State.writeIbuf` -/

@[simp] theorem State.writeIbuf_prev (s : State cfg) (i : Nat) (v : SoftBit) : (s.writeIbuf i v).prev = s.prev := rfl
@[simp] theorem State.writeIbuf_curr (s : State cfg) (i : Nat) (v : SoftBit) : (s.writeIbuf i v).curr = s.curr := rfl
@[simp] theorem State.writeIbuf_hist (s : State cfg) (i : Nat) (v : SoftBit) : (s.writeIbuf i v).hist = s.hist := rfl
@[simp] theorem State.writeIbuf_phase (s : State cfg) (i : Nat) (v : SoftBit) : (s.writeIbuf i v).phase = s.phase := rfl
@[simp] theorem State.writeIbuf_ibuf (s : State cfg) (i : Nat) (v : SoftBit) : (s.writeIbuf i v).ibuf = Mem.write (ibufSpace cfg) s.ibuf i v := rfl
@[simp] theorem State.writeIbuf_pbuf (s : State cfg) (i : Nat) (v : SoftBit) : (s.writeIbuf i v).pbuf = s.pbuf := rfl
@[simp] theorem State.writeIbuf_obuf (s : State cfg) (i : Nat) (v : SoftBit) : (s.writeIbuf i v).obuf = s.obuf := rfl
@[simp] theorem State.writeIbuf_host (s : State cfg) (i : Nat) (v : SoftBit) : (s.writeIbuf i v).host = s.host := rfl
@[simp] theorem State.writeIbuf_response (s : State cfg) (i : Nat) (v : SoftBit) : (s.writeIbuf i v).response = s.response := rfl
@[simp] theorem State.writeIbuf_epoch (s : State cfg) (i : Nat) (v : SoftBit) : (s.writeIbuf i v).epoch = s.epoch := rfl

/-! ## `State.writePbuf` -/

@[simp] theorem State.writePbuf_prev (s : State cfg) (i : Nat) (v : BitVec 1) : (s.writePbuf i v).prev = s.prev := rfl
@[simp] theorem State.writePbuf_curr (s : State cfg) (i : Nat) (v : BitVec 1) : (s.writePbuf i v).curr = s.curr := rfl
@[simp] theorem State.writePbuf_hist (s : State cfg) (i : Nat) (v : BitVec 1) : (s.writePbuf i v).hist = s.hist := rfl
@[simp] theorem State.writePbuf_phase (s : State cfg) (i : Nat) (v : BitVec 1) : (s.writePbuf i v).phase = s.phase := rfl
@[simp] theorem State.writePbuf_ibuf (s : State cfg) (i : Nat) (v : BitVec 1) : (s.writePbuf i v).ibuf = s.ibuf := rfl
@[simp] theorem State.writePbuf_pbuf (s : State cfg) (i : Nat) (v : BitVec 1) : (s.writePbuf i v).pbuf = Mem.write (pbufSpace cfg) s.pbuf i v := rfl
@[simp] theorem State.writePbuf_obuf (s : State cfg) (i : Nat) (v : BitVec 1) : (s.writePbuf i v).obuf = s.obuf := rfl
@[simp] theorem State.writePbuf_host (s : State cfg) (i : Nat) (v : BitVec 1) : (s.writePbuf i v).host = s.host := rfl
@[simp] theorem State.writePbuf_response (s : State cfg) (i : Nat) (v : BitVec 1) : (s.writePbuf i v).response = s.response := rfl
@[simp] theorem State.writePbuf_epoch (s : State cfg) (i : Nat) (v : BitVec 1) : (s.writePbuf i v).epoch = s.epoch := rfl

/-! ## `State.writeHist` -/

@[simp] theorem State.writeHist_prev (s : State cfg) (p : Nat) (w : HistWord) : (s.writeHist p w).prev = s.prev := rfl
@[simp] theorem State.writeHist_curr (s : State cfg) (p : Nat) (w : HistWord) : (s.writeHist p w).curr = s.curr := rfl
@[simp] theorem State.writeHist_hist (s : State cfg) (p : Nat) (w : HistWord) : (s.writeHist p w).hist = Mem.write (histSpace cfg) s.hist p w := rfl
@[simp] theorem State.writeHist_phase (s : State cfg) (p : Nat) (w : HistWord) : (s.writeHist p w).phase = s.phase := rfl
@[simp] theorem State.writeHist_ibuf (s : State cfg) (p : Nat) (w : HistWord) : (s.writeHist p w).ibuf = s.ibuf := rfl
@[simp] theorem State.writeHist_pbuf (s : State cfg) (p : Nat) (w : HistWord) : (s.writeHist p w).pbuf = s.pbuf := rfl
@[simp] theorem State.writeHist_obuf (s : State cfg) (p : Nat) (w : HistWord) : (s.writeHist p w).obuf = s.obuf := rfl
@[simp] theorem State.writeHist_host (s : State cfg) (p : Nat) (w : HistWord) : (s.writeHist p w).host = s.host := rfl
@[simp] theorem State.writeHist_response (s : State cfg) (p : Nat) (w : HistWord) : (s.writeHist p w).response = s.response := rfl
@[simp] theorem State.writeHist_epoch (s : State cfg) (p : Nat) (w : HistWord) : (s.writeHist p w).epoch = s.epoch := rfl

/-! ## `trellisStep` -/

@[simp] theorem trellisStep_prev (n : Nat) (s0 s1 : SoftBit) (s : State cfg) :
    (trellisStep n s0 s1 s).prev = Vector.ofFn fun t => (survivor cfg s.prev s0 s1 t).2 := rfl
@[simp] theorem trellisStep_curr (n : Nat) (s0 s1 : SoftBit) (s : State cfg) :
    (trellisStep n s0 s1 s).curr = s.prev := rfl
@[simp] theorem trellisStep_hist (n : Nat) (s0 s1 : SoftBit) (s : State cfg) :
    (trellisStep n s0 s1 s).hist = Mem.write (histSpace cfg) s.hist n (wordOfBits fun t => (survivor cfg s.prev s0 s1 t).1) := rfl
@[simp] theorem trellisStep_phase (n : Nat) (s0 s1 : SoftBit) (s : State cfg) :
    (trellisStep n s0 s1 s).phase = .accum := rfl
@[simp] theorem trellisStep_ibuf (n : Nat) (s0 s1 : SoftBit) (s : State cfg) :
    (trellisStep n s0 s1 s).ibuf = s.ibuf := rfl
@[simp] theorem trellisStep_pbuf (n : Nat) (s0 s1 : SoftBit) (s : State cfg) :
    (trellisStep n s0 s1 s).pbuf = s.pbuf := rfl
@[simp] theorem trellisStep_obuf (n : Nat) (s0 s1 : SoftBit) (s : State cfg) :
    (trellisStep n s0 s1 s).obuf = s.obuf := rfl
@[simp] theorem trellisStep_host (n : Nat) (s0 s1 : SoftBit) (s : State cfg) :
    (trellisStep n s0 s1 s).host = s.host := rfl
@[simp] theorem trellisStep_response (n : Nat) (s0 s1 : SoftBit) (s : State cfg) :
    (trellisStep n s0 s1 s).response = s.response := rfl
@[simp] theorem trellisStep_epoch (n : Nat) (s0 s1 : SoftBit) (s : State cfg) :
    (trellisStep n s0 s1 s).epoch = s.epoch := rfl

/-! ## `chainback` -/

@[simp] theorem chainback_prev (n x : Nat) (s : State cfg) :
    (chainback n x s).prev = s.prev := rfl
@[simp] theorem chainback_curr (n x : Nat) (s : State cfg) :
    (chainback n x s).curr = s.curr := rfl
@[simp] theorem chainback_hist (n x : Nat) (s : State cfg) :
    (chainback n x s).hist = s.hist := rfl
@[simp] theorem chainback_phase (n x : Nat) (s : State cfg) :
    (chainback n x s).phase = .chained := rfl
@[simp] theorem chainback_ibuf (n x : Nat) (s : State cfg) :
    (chainback n x s).ibuf = s.ibuf := rfl
@[simp] theorem chainback_pbuf (n x : Nat) (s : State cfg) :
    (chainback n x s).pbuf = s.pbuf := rfl
@[simp] theorem chainback_obuf (n x : Nat) (s : State cfg) :
    (chainback n x s).obuf = walk cfg s.readHist n 0 (x + (Config.constraintLength - 1)) (clearedObuf cfg) := rfl
@[simp] theorem chainback_host (n x : Nat) (s : State cfg) :
    (chainback n x s).host = s.host := rfl
@[simp] theorem chainback_response (n x : Nat) (s : State cfg) :
    (chainback n x s).response = s.response := rfl
@[simp] theorem chainback_epoch (n x : Nat) (s : State cfg) :
    (chainback n x s).epoch = s.epoch := rfl

/-! ## Reads depend on their own space only -/

theorem State.readIbuf_congr {s t : State cfg} (h : t.ibuf = s.ibuf) (he : t.epoch = s.epoch) : t.readIbuf = s.readIbuf := by
  funext i; simp [State.readIbuf, h, he]

theorem State.readPbuf_congr {s t : State cfg} (h : t.pbuf = s.pbuf) (he : t.epoch = s.epoch) : t.readPbuf = s.readPbuf := by
  funext i; simp [State.readPbuf, h, he]

theorem State.readObuf_congr {s t : State cfg} (h : t.obuf = s.obuf) (he : t.epoch = s.epoch) : t.readObuf = s.readObuf := by
  funext i; simp [State.readObuf, h, he]

theorem State.readHist_congr {s t : State cfg} (h : t.hist = s.hist) : t.readHist = s.readHist := by
  funext i; simp [State.readHist, h]

/-- Hardware reset and the state after it agree on everything the spec names (10_state.md R40, R260). -/
theorem State.hardReset_eq_reset (s : State cfg) :
    s.hardReset = { State.resetAt cfg with host := s.host, epoch := s.epoch + 1 } := by
  have h1 : initMetrics cfg = (Vector.replicate 16 cfg.sentinel).set 0 0 := by
    ext i hi
    simp only [initMetrics, Vector.getElem_ofFn, Vector.getElem_set, Vector.getElem_replicate, eq_comm (a := i)]
  have h2 : (Vector.ofFn fun _ => 0 : Vector cfg.Metric 16) = Vector.replicate 16 0 := by
    ext i hi; simp
  simp only [State.hardReset, State.resetDecoder, h1, h2, State.resetAt]

end Sys2Proof.Machine
end

