-- ==== Sys2Proof/Laws/Memory.lean ====
section
/-! SUPPORT. The laws of element-indexed spaces (20_memory.md R51): a read after a write, and that every memory operation
keeps the canonical form, in which equal contents are equal lists. -/

namespace Sys2Proof.Machine

variable {cfg : Params}

variable {w : Nat}

/-! ## Reads after writes -/

@[simp] theorem Mem.lookup_nil (i : Nat) : Mem.lookup ([] : Mem w) i = none := rfl

theorem Mem.lookup_cons (k : Nat) (u : BitVec w) (m : Mem w) (i : Nat) :
    Mem.lookup ((k, u) :: m) i = if i = k then some u else Mem.lookup m i := rfl

theorem Mem.lookup_put (m : Mem w) (i : Nat) (v : BitVec w) (j : Nat) :
    Mem.lookup (Mem.put m i v) j = if j = i then some v else Mem.lookup m j := by
  induction m with
  | nil => simp [Mem.put, Mem.lookup_cons]
  | cons c m ih =>
    obtain ⟨k, u⟩ := c
    simp only [Mem.put]
    split
    · simp [Mem.lookup_cons]
    · split
      · next h => subst h; simp only [Mem.lookup_cons]; split <;> simp
      · simp only [Mem.lookup_cons, ih]
        split <;> split <;> first | rfl | omega

theorem Mem.lookup_erase (m : Mem w) (i j : Nat) :
    Mem.lookup (Mem.erase m i) j = if j = i then none else Mem.lookup m j := by
  induction m with
  | nil => simp [Mem.erase]
  | cons c m ih =>
    obtain ⟨k, u⟩ := c
    have ih' : Mem.lookup (m.filter fun c => c.1 != i) j = if j = i then none else Mem.lookup m j := ih
    by_cases hk : k = i
    · subst hk
      simp only [Mem.erase, List.filter_cons, bne_self_eq_false, Bool.false_eq_true, if_false, ih',
        Mem.lookup_cons]
      split <;> simp_all
    · simp only [Mem.erase, List.filter_cons, bne_iff_ne, ne_eq, hk, not_false_eq_true, if_true, Mem.lookup_cons,
        ih']
      split <;> split <;> first | rfl | omega

/-- What a write can do: its element reads as the value (an unlisted one as the space's own value), every other element
as before. -/
theorem Mem.lookup_write (sp : Space w) (m : Mem w) (i : Nat) (v : BitVec w) (j : Nat) :
    Mem.lookup (Mem.write sp m i v) j =
      if j = i then (if sp.unlisted = some v then none else some v) else Mem.lookup m j := by
  unfold Mem.write
  split <;> simp [Mem.lookup_put, Mem.lookup_erase, *]

@[simp] theorem State.readIbuf_writeIbuf (s : State cfg) (i : Nat) (v : SoftBit) (j : Nat) :
    (s.writeIbuf i v).readIbuf j = if j = i then v else s.readIbuf j := by
  simp only [State.readIbuf, State.writeIbuf_ibuf, State.writeIbuf_epoch, Mem.lookup_write, ibufSpace]
  split <;> simp

@[simp] theorem State.readPbuf_writePbuf (s : State cfg) (i : Nat) (v : BitVec 1) (j : Nat) :
    (s.writePbuf i v).readPbuf j = if j = i then v else s.readPbuf j := by
  simp only [State.readPbuf, State.writePbuf_pbuf, State.writePbuf_epoch, Mem.lookup_write, pbufSpace]
  split <;> simp

@[simp] theorem State.readHist_writeHist (s : State cfg) (p : Nat) (v : HistWord) (j : Nat) :
    (s.writeHist p v).readHist j = if j = p then v else s.readHist j := by
  simp only [State.readHist, State.writeHist_hist, Mem.lookup_write, histSpace, Option.some.injEq]
  split
  · split
    · next h => simp [← h]
    · simp
  · rfl

theorem readHist_trellisStep (n : Nat) (s0 s1 : SoftBit) (s : State cfg) (p : Nat) :
    (trellisStep n s0 s1 s).readHist p =
      if p = n then wordOfBits (fun t => (survivor cfg s.prev s0 s1 t).1) else s.readHist p :=
  State.readHist_writeHist s n _ p

/-! ## The canonical form -/

theorem Mem.wf_nil (sp : Space w) : Mem.wf sp [] := by simp [Mem.wf]

theorem Mem.mem_put {m : Mem w} {i : Nat} {v : BitVec w} {c : Nat × BitVec w} (h : c ∈ Mem.put m i v) :
    c = (i, v) ∨ c ∈ m := by
  induction m with
  | nil => simpa [Mem.put] using h
  | cons d m ih =>
    obtain ⟨k, u⟩ := d
    simp only [Mem.put] at h
    split at h
    · simpa using h
    · split at h
      · simp only [List.mem_cons] at h ⊢; tauto
      · simp only [List.mem_cons] at h ⊢
        rcases h with h | h
        · exact .inr (.inl h)
        · rcases ih h with h | h <;> tauto

theorem Mem.pairwise_put {m : Mem w} (h : m.Pairwise fun a b => a.1 < b.1) (i : Nat) (v : BitVec w) :
    (Mem.put m i v).Pairwise fun a b => a.1 < b.1 := by
  induction m with
  | nil => simp [Mem.put]
  | cons d m ih =>
    obtain ⟨k, u⟩ := d
    rw [List.pairwise_cons] at h
    simp only [Mem.put]
    split
    · next hik =>
      refine List.pairwise_cons.mpr ⟨fun c hc => ?_, List.pairwise_cons.mpr h⟩
      rcases List.mem_cons.mp hc with rfl | hc
      · exact hik
      · exact Nat.lt_trans hik (h.1 c hc)
    · split
      · next hik => subst hik; exact List.pairwise_cons.mpr h
      · refine List.pairwise_cons.mpr ⟨fun c hc => ?_, ih h.2⟩
        rcases Mem.mem_put hc with rfl | hc
        · show k < i; omega
        · exact h.1 c hc

theorem Mem.wf_put {sp : Space w} {m : Mem w} (h : Mem.wf sp m) {i : Nat} {v : BitVec w} (hi : i < sp.depth)
    (hv : sp.unlisted ≠ some v) : Mem.wf sp (Mem.put m i v) := by
  refine ⟨Mem.pairwise_put h.1 i v, fun c hc => ?_⟩
  rcases Mem.mem_put hc with rfl | hc
  · exact ⟨hi, hv⟩
  · exact h.2 c hc

theorem Mem.wf_erase {sp : Space w} {m : Mem w} (h : Mem.wf sp m) (i : Nat) : Mem.wf sp (Mem.erase m i) :=
  ⟨h.1.filter _, fun c hc => h.2 c (List.mem_of_mem_filter hc)⟩

/-- A write inside the space keeps the canonical form. -/
theorem Mem.wf_write {sp : Space w} {m : Mem w} (h : Mem.wf sp m) {i : Nat} (v : BitVec w) (hi : i < sp.depth) :
    Mem.wf sp (Mem.write sp m i v) := by
  unfold Mem.write
  split
  · exact Mem.wf_erase h i
  · next hv => exact Mem.wf_put h hi hv

theorem Mem.lookup_eq_none_of_lt {m : Mem w} {i : Nat} (h : ∀ c ∈ m, i < c.1) : Mem.lookup m i = none := by
  induction m with
  | nil => rfl
  | cons c m ih =>
    obtain ⟨k, u⟩ := c
    have hk : i < k := h (k, u) (by simp)
    rw [Mem.lookup_cons, if_neg (by omega)]
    exact ih fun c hc => h c (List.mem_cons_of_mem _ hc)

/-- Equal contents are equal lists. -/
theorem Mem.ext_of_pairwise {m m' : Mem w} (h : m.Pairwise fun a b => a.1 < b.1)
    (h' : m'.Pairwise fun a b => a.1 < b.1) (hl : ∀ i, Mem.lookup m i = Mem.lookup m' i) : m = m' := by
  induction m generalizing m' with
  | nil =>
    cases m' with
    | nil => rfl
    | cons d m' =>
      have := hl d.1
      simp [Mem.lookup] at this
  | cons c m ih =>
    obtain ⟨k, u⟩ := c
    rw [List.pairwise_cons] at h
    cases m' with
    | nil => simpa [Mem.lookup_cons] using hl k
    | cons d m' =>
      obtain ⟨k', u'⟩ := d
      rw [List.pairwise_cons] at h'
      have hk : k = k' := by
        rcases Nat.lt_trichotomy k k' with hlt | heq | hgt
        · have := hl k
          rw [Mem.lookup_cons, if_pos rfl, Mem.lookup_cons, if_neg (by omega),
            Mem.lookup_eq_none_of_lt fun c hc => Nat.lt_trans hlt (h'.1 c hc)] at this
          cases this
        · exact heq
        · have := hl k'
          rw [Mem.lookup_cons, if_neg (by omega), Mem.lookup_cons, if_pos rfl,
            Mem.lookup_eq_none_of_lt fun c hc => Nat.lt_trans hgt (h.1 c hc)] at this
          cases this
      subst hk
      have hu : u = u' := by simpa [Mem.lookup_cons] using hl k
      subst hu
      congr 1
      refine ih h.2 h'.2 fun i => ?_
      by_cases hi : i = k
      · subst hi
        rw [Mem.lookup_eq_none_of_lt h.1, Mem.lookup_eq_none_of_lt h'.1]
      · simpa [Mem.lookup_cons, hi] using hl i

/-! ## OBUF while it is written (42_viterbi_decoder.md R160) -/

theorem lookup_map_range_zero (n k : Nat) :
    Mem.lookup (((List.range n).map fun k => (k, 0)) : Mem 8) k = if k < n then some 0 else none := by
  have general : ∀ (l : List Nat), Mem.lookup ((l.map fun k => (k, 0)) : Mem 8) k = if k ∈ l then some 0 else none := by
    intro l
    induction l with
    | nil => simp
    | cons a l ih => simp only [List.map_cons, Mem.lookup_cons, ih, List.mem_cons]; split <;> simp_all
  simpa using general (List.range n)

@[simp] theorem lookup_clearedObuf (k : Nat) :
    Mem.lookup (clearedObuf cfg) k = if k < cfg.obufBytes then some 0 else none :=
  lookup_map_range_zero cfg.obufBytes k

theorem wf_clearedObuf : Mem.wf (obufSpace cfg) (clearedObuf cfg) := by
  refine ⟨?_, ?_⟩
  · simpa [clearedObuf, List.pairwise_map] using List.pairwise_lt_range (n := cfg.obufBytes)
  · simp [clearedObuf, obufSpace]

theorem setObufBit_eq_put (m : Mem 8) (j : Nat) :
    setObufBit cfg m j = Mem.put m (j / 8) ((Mem.lookup m (j / 8)).getD 0 ||| ((1 : BitVec 8) <<< (7 - j % 8))) := by
  simp [setObufBit, Mem.write, obufSpace]

theorem lookup_setObufBit (m : Mem 8) (j k : Nat) :
    Mem.lookup (setObufBit cfg m j) k =
      if k = j / 8 then some ((Mem.lookup m (j / 8)).getD 0 ||| ((1 : BitVec 8) <<< (7 - j % 8)))
      else Mem.lookup m k := by
  rw [setObufBit_eq_put, Mem.lookup_put]

theorem wf_setObufBit {m : Mem 8} (h : Mem.wf (obufSpace cfg) m) {j : Nat} (hj : j < 8 * cfg.obufBytes) :
    Mem.wf (obufSpace cfg) (setObufBit cfg m j) := by
  rw [setObufBit_eq_put]
  refine Mem.wf_put h ?_ (by simp [obufSpace])
  simp only [obufSpace]; omega

end Sys2Proof.Machine
end

