-- ==== Sys2Proof/Laws/Exec.lean ====
section
/-! SUPPORT. What answering a command can do, once per shared operation and once per command: if it answers a next state,
that state is the rejection of the old one under the check that failed, or the reply of the command's effect. -/

namespace Sys2Proof.Machine

variable {cfg : Params}

/-! ## The shared operations -/

@[simp] theorem accept_eq (v : BitVec 32) (s : State cfg) : accept v s = .next (s.reply v) := rfl

@[simp] theorem raise_eq (e : ErrCode) (s : State cfg) : raise e s = .next (s.reject e) := rfl

@[simp] theorem guarded_none (s : State cfg) (k : Host.Outcome (State cfg) Fault Refusal) : guarded none s k = k := rfl

@[simp] theorem guarded_some (e : ErrCode) (s : State cfg) (k : Host.Outcome (State cfg) Fault Refusal) :
    guarded (some e) s k = .next (s.reject e) := rfl

theorem guarded_accept_cases {c : Option ErrCode} {s u t : State cfg} {v : BitVec 32}
    (h : guarded c s (accept v u) = .next t) :
    (∃ e, c = some e ∧ t = s.reject e) ∨ (c = none ∧ t = u.reply v) := by
  cases c with
  | none => exact .inr ⟨rfl, by simpa using h.symm⟩
  | some e => exact .inl ⟨e, rfl, by simpa using h.symm⟩

/-! ## The checks (60_exceptions.md R237) -/

theorem checkStep_eq_none {n : Nat} {p : Phase} : checkStep cfg n p = none ↔ n < cfg.histLen ∧ p ≠ .chained := by
  unfold checkStep; split
  · simp; omega
  · split <;> simp_all

theorem checkStep_ne_ok {n : Nat} {p : Phase} {e : ErrCode} (h : checkStep cfg n p = some e) : e ≠ .ok := by
  unfold checkStep at h; split at h
  · cases h; decide
  · split at h <;> cases h; decide

theorem checkChb_eq_none {n x : Nat} :
    checkChb cfg n x = none ↔ n ≤ cfg.histLen ∧ x ≤ cfg.histLen ∧ n ≤ x + 4 := by
  unfold checkChb; split
  · simp; omega
  · split
    · simp_all [Config.constraintLength]
    · simp_all [Config.constraintLength]

theorem checkChb_ne_ok {n x : Nat} {e : ErrCode} (h : checkChb cfg n x = some e) : e ≠ .ok := by
  unfold checkChb at h; split at h
  · cases h; decide
  · split at h <;> cases h; decide

theorem checkDec_eq_none {len : Nat} : checkDec cfg len = none ↔ len ≤ cfg.maxLen ∧ len % 2 = 0 := by
  unfold checkDec; split
  · simp; omega
  · split <;> simp_all

theorem checkDec_ne_ok {len : Nat} {e : ErrCode} (h : checkDec cfg len = some e) : e ≠ .ok := by
  unfold checkDec at h; split at h
  · cases h; decide
  · split at h <;> cases h; decide

theorem checkDecp_eq_none {s : State cfg} {inLen pLen : Nat} :
    checkDecp s inLen pLen = none ↔
      pLen ≠ 0 ∧ ∃ u, expandedLength s inLen pLen = some u ∧ u % 2 = 0 := by
  unfold checkDecp; split
  · simp_all
  · split
    · simp_all
    · split <;> simp_all

theorem checkDecp_ne_ok {s : State cfg} {inLen pLen : Nat} {e : ErrCode} (h : checkDecp s inLen pLen = some e) :
    e ≠ .ok := by
  unfold checkDecp at h; split at h
  · cases h; decide
  · split at h
    · cases h; decide
    · split at h <;> cases h; decide

theorem checkIndex_eq_none {n d : Nat} : checkIndex n d = none ↔ n < d := by
  unfold checkIndex; split <;> simp_all

theorem checkIndex_ne_ok {n d : Nat} {e : ErrCode} (h : checkIndex n d = some e) : e ≠ .ok := by
  unfold checkIndex at h; split at h <;> cases h; decide

/-! ## One inversion lemma per command -/

theorem exec_rst {s : State} : exec .rst s = .next (s.resetDecoder.reply 0) := rfl

theorem exec_step_cases {n : Nat} {s0 s1 : SoftBit} {s t : State} (h : exec (.step n s0 s1) s = .next t) :
    (∃ e, checkStep Config.params n s.phase = some e ∧ t = s.reject e) ∨
    (checkStep Config.params n s.phase = none ∧ t = (trellisStep n s0 s1 s).reply 0) := guarded_accept_cases h

theorem exec_chb_cases {n x : Nat} {s t : State} (h : exec (.chb n x) s = .next t) :
    (∃ e, checkChb Config.params n x = some e ∧ t = s.reject e) ∨
    (checkChb Config.params n x = none ∧ t = (chainback n x s).reply (metricVal (minMetric s.prev))) := guarded_accept_cases h

theorem exec_dec_cases {len : Nat} {s t : State} (h : exec (.dec len) s = .next t) :
    (∃ e, checkDec Config.params len = some e ∧ t = s.reject e) ∨
    (checkDec Config.params len = none ∧
      t = (decodePairs s.readIbuf (len / 2) s).reply (metricVal (minMetric (decodePairs s.readIbuf (len / 2) s).prev))) :=
  guarded_accept_cases h

theorem exec_decp_cases {inLen pLen : Nat} {s t : State} (h : exec (.decp inLen pLen) s = .next t) :
    (∃ e, checkDecp s inLen pLen = some e ∧ t = s.reject e) ∨
    ∃ u, pLen ≠ 0 ∧ expandedLength s inLen pLen = some u ∧ u % 2 = 0 ∧
      t = (decodePairs (expandedBit s pLen u) (u / 2) s).reply
        (metricVal
          (subMetric (minMetric (decodePairs (expandedBit s pLen u) (u / 2) s).prev)
            (erasureBias Config.params u inLen))) := by
  rcases guarded_accept_cases h with h | ⟨hc, ht⟩
  · exact .inl h
  · obtain ⟨hp, u, hu, he⟩ := checkDecp_eq_none.mp hc
    rw [hu] at ht
    exact .inr ⟨u, hp, hu, he, ht⟩

theorem exec_slc {x : Int} {s : State} :
    exec (.slc x) s = .next (s.reply (BitVec.ofInt 16 (sliceB1 Config.params x) ++ BitVec.ofInt 16 (sliceB0 Config.params x))) := rfl

theorem exec_rdt_cases {n : Nat} {s t : State} (h : exec (.rdt n) s = .next t) :
    (∃ e, checkIndex n 8 = some e ∧ t = s.reject e) ∨
    (checkIndex n 8 = none ∧ t = s.reply ((romEntry Config.params n).ideal0 ++ (romEntry Config.params n).ideal1)) := guarded_accept_cases h

theorem exec_ldi_cases {n : Nat} {v : SoftBit} {s t : State} (h : exec (.ldi n v) s = .next t) :
    (∃ e, checkIndex n Config.params.ibufDepth = some e ∧ t = s.reject e) ∨
    (checkIndex n Config.params.ibufDepth = none ∧ t = (s.writeIbuf n v).reply 0) := guarded_accept_cases h

theorem exec_ldp_cases {n : Nat} {b : BitVec 1} {s t : State} (h : exec (.ldp n b) s = .next t) :
    (∃ e, checkIndex n Config.params.pbufDepth = some e ∧ t = s.reject e) ∨
    (checkIndex n Config.params.pbufDepth = none ∧ t = (s.writePbuf n b).reply 0) := guarded_accept_cases h

theorem exec_rdo_cases {n : Nat} {s t : State} (h : exec (.rdo n) s = .next t) :
    (∃ e, checkIndex n Config.params.obufBytes = some e ∧ t = s.reject e) ∨
    (checkIndex n Config.params.obufBytes = none ∧ t = s.reply ((s.readObuf n).setWidth 32)) := guarded_accept_cases h

theorem exec_rdm_cases {n : Nat} {s t : State} (h : exec (.rdm n) s = .next t) :
    (∃ e, checkIndex n 16 = some e ∧ t = s.reject e) ∨
    (checkIndex n 16 = none ∧ t = s.reply (metricVal (metricAt s.prev n))) := guarded_accept_cases h

theorem exec_rdh_cases {n : Nat} {s t : State} (h : exec (.rdh n) s = .next t) :
    (∃ e, checkIndex n Config.params.histLen = some e ∧ t = s.reject e) ∨
    (checkIndex n Config.params.histLen = none ∧ t = s.reply ((s.readHist n).setWidth 32)) := guarded_accept_cases h

theorem exec_rds {s : State} : exec .rds s = .next (s.reply (statusValue Config.params s.phase)) := rfl

/-! ## The step -/

/-- `exec` is the dispatch of a block at the spec's configuration. -/
theorem execAt_eq_exec (i : Instr) (s : State) : execAt i s = exec i s := by cases i <;> rfl

/-- `step` is the step of a block at the spec's configuration. -/
theorem stepWith_execAt (s : State) : stepWith execAt s = step s := by
  rw [step, funext fun i => funext (execAt_eq_exec i)]

/-- What a step can do: stay idle, reset, reject a word, or perform the command that the word decodes to. -/
theorem step_cases {s t : State} (h : step s = .next t) :
    (s.host = [] ∧ t = s) ∨
    (∃ a rest, s.host = .rst a :: rest ∧ t = State.hardReset { s with host := rest }) ∨
    (∃ w rest x, s.host = .command w :: rest ∧ decode w = .error x ∧
      t = State.reject { s with host := rest } .illegal) ∨
    ∃ w rest i, s.host = .command w :: rest ∧ decode w = .ok i ∧ exec i { s with host := rest } = .next t := by
  unfold step stepWith at h
  split at h
  · next hh => exact .inl ⟨hh, by simpa using h.symm⟩
  · next a rest hh =>
    cases a with
    | rst a => exact .inr (.inl ⟨a, rest, hh, by simpa [perform] using h.symm⟩)
    | command w =>
      simp only [perform, performWord] at h
      split at h
      · next i hd => exact .inr (.inr (.inr ⟨w, rest, i, hh, hd, h⟩))
      · next x hd => exact .inr (.inr (.inl ⟨w, rest, x, hh, hd, by simpa using h.symm⟩))

end Sys2Proof.Machine
end

