-- ==== Sys2Proof/Laws/PerInstr.lean ====
section
/-! SUPPORT. The per-instruction family FieldRoundTrip (LAWS.json): the fields of a well-formed command fit their widths
and decode to the command (30_encoding.md R70, R72, R75). -/

namespace Sys2Proof.Laws.FieldRoundTrip

/-- The fields of a well-formed command are in range and decode to it. -/
def Statement (i : Instr) : Prop :=
  i.wellFormed = true → (encodeFields i).InRange ∧ decodeFields (encodeFields i) = .ok i

theorem rst : Statement .rst := fun _ => by decide

theorem step (position : Nat) (s0 s1 : SoftBit) : Statement (.step position s0 s1) := fun h => by
  simp only [Instr.wellFormed, fits16_iff] at h
  have := s0.isLt; have := s1.isLt
  exact ⟨by simp only [Fields.InRange, encodeFields]; omega, by simp [encodeFields, decodeFields, ifZero]⟩

theorem chb (position bitLength : Nat) : Statement (.chb position bitLength) := fun h => by
  simp only [Instr.wellFormed, Bool.and_eq_true, fits16_iff] at h
  exact ⟨by simp only [Fields.InRange, encodeFields]; omega, by simp [encodeFields, decodeFields, ifZero]⟩

theorem dec (len : Nat) : Statement (.dec len) := fun h => by
  simp only [Instr.wellFormed, fits16_iff] at h
  exact ⟨by simp only [Fields.InRange, encodeFields]; omega, by simp [encodeFields, decodeFields, ifZero]⟩

theorem decp (inLen pLen : Nat) : Statement (.decp inLen pLen) := fun h => by
  simp only [Instr.wellFormed, Bool.and_eq_true, fits16_iff, fits8_iff] at h
  exact ⟨by simp only [Fields.InRange, encodeFields]; omega, by simp [encodeFields, decodeFields, ifZero]⟩

theorem slc (sample : Int) : Statement (.slc sample) := fun h => by
  have h : FitsSigned Config.params.sampleW sample := of_decide_eq_true h
  have hlt : (sample % 2 ^ Config.params.sampleW).toNat < 65536 := emod_toNat_lt 16 sample
  have hz : (sample % 2 ^ Config.params.sampleW).toNat / 2 ^ Config.params.sampleW = 0 := Nat.div_eq_of_lt hlt
  refine ⟨by simp only [Fields.InRange, encodeFields]; omega, ?_⟩
  show ifZero 0x06 [0, 0, (sample % 2 ^ Config.params.sampleW).toNat / 2 ^ Config.params.sampleW, 0]
    (.slc (sext Config.params.sampleW (sample % 2 ^ Config.params.sampleW).toNat)) = _
  rw [hz, sext_emod (by decide) h]
  rfl

theorem rdt (halfState : Nat) : Statement (.rdt halfState) := fun h => by
  simp only [Instr.wellFormed, fits16_iff] at h
  exact ⟨by simp only [Fields.InRange, encodeFields]; omega, by simp [encodeFields, decodeFields, ifZero]⟩

theorem ldi (index : Nat) (value : SoftBit) : Statement (.ldi index value) := fun h => by
  simp only [Instr.wellFormed, fits16_iff] at h
  have := value.isLt
  exact ⟨by simp only [Fields.InRange, encodeFields]; omega, by simp [encodeFields, decodeFields, ifZero]⟩

theorem ldp (index : Nat) (bit : BitVec 1) : Statement (.ldp index bit) := fun h => by
  simp only [Instr.wellFormed, fits16_iff] at h
  have := bit.isLt
  exact ⟨by simp only [Fields.InRange, encodeFields]; omega, by
    simp [encodeFields, decodeFields, ifZero]; omega⟩

theorem rdo (index : Nat) : Statement (.rdo index) := fun h => by
  simp only [Instr.wellFormed, fits16_iff] at h
  exact ⟨by simp only [Fields.InRange, encodeFields]; omega, by simp [encodeFields, decodeFields, ifZero]⟩

theorem rdm (state : Nat) : Statement (.rdm state) := fun h => by
  simp only [Instr.wellFormed, fits16_iff] at h
  exact ⟨by simp only [Fields.InRange, encodeFields]; omega, by simp [encodeFields, decodeFields, ifZero]⟩

theorem rdh (position : Nat) : Statement (.rdh position) := fun h => by
  simp only [Instr.wellFormed, fits16_iff] at h
  exact ⟨by simp only [Fields.InRange, encodeFields]; omega, by simp [encodeFields, decodeFields, ifZero]⟩

theorem rds : Statement .rds := fun _ => by decide

end Sys2Proof.Laws.FieldRoundTrip
end

