-- ==== Sys2Proof/Laws/Viterbi.lean ====
section
/-! SUPPORT. What the decoder's shared operations do: the walk of the chainback, the run of steps, the decode, and the
adapter's expansion (42_viterbi_decoder.md, 43_punctured_adapter.md). -/

namespace Sys2Proof.Machine

variable {cfg : Params}

/-! ## The winners of a step -/

/-- The decision bit and the new metric of successor t, from its two candidates (R152, R153). -/
theorem survivor_spec (prev : Vector cfg.Metric 16) (s0 s1 : SoftBit) (t : Nat) :
    let bm0 := BitVec.ofNat cfg.metricW (branchMetric0 cfg s0 s1 (t / 2))
    let bm1 := BitVec.ofNat cfg.metricW (branchMetric1 cfg s0 s1 (t / 2))
    let first := metricAt prev (t / 2) + if t % 2 = 0 then bm0 else bm1
    let second := metricAt prev (t / 2 + 8) + if t % 2 = 0 then bm1 else bm0
    (survivor cfg prev s0 s1 t).1 = decide (second ≤ first) ∧
      (survivor cfg prev s0 s1 t).2 = if second ≤ first then second else first := by
  simp only [survivor, addMetric]
  split <;> exact select_spec _ _

/-- The new metric of successor t is the lesser candidate, as a number (R152, R153). -/
theorem toNat_survivor (prev : Vector cfg.Metric 16) (s0 s1 : SoftBit) (t : Nat) :
    let bm0 := BitVec.ofNat cfg.metricW (branchMetric0 cfg s0 s1 (t / 2))
    let bm1 := BitVec.ofNat cfg.metricW (branchMetric1 cfg s0 s1 (t / 2))
    (survivor cfg prev s0 s1 t).2.toNat =
      min (addMetric (metricAt prev (t / 2)) (if t % 2 = 0 then bm0 else bm1)).toNat
        (addMetric (metricAt prev (t / 2 + 8)) (if t % 2 = 0 then bm1 else bm0)).toNat := by
  simp only [survivor]
  split <;> exact toNat_select _ _

/-- The winner of successor t depends on the two predecessors' metrics only (R156). -/
theorem survivor_congr {prev prev' : Vector cfg.Metric 16} {t : Nat} (h : metricAt prev (t / 2) = metricAt prev' (t / 2))
    (h' : metricAt prev (t / 2 + 8) = metricAt prev' (t / 2 + 8)) (s0 s1 : SoftBit) :
    survivor cfg prev s0 s1 t = survivor cfg prev' s0 s1 t := by
  simp only [survivor, h, h']

/-! ## The walk -/

/-- Bit-string index j of an output memory (20_memory.md R52). -/
def obufBitOf (m : Mem 8) (j : Nat) : Bool := ((Mem.lookup m (j / 8)).getD 0).getLsbD (7 - j % 8)

theorem State.obufBit_eq_of_written {s : State cfg} {j : Nat} (h : Mem.written s.obuf (j / 8) = true) :
    s.obufBit j = obufBitOf s.obuf j := by
  unfold State.obufBit State.readObuf obufBitOf
  obtain ⟨v, hv⟩ := Option.isSome_iff_exists.mp h
  simp [hv]

theorem obufBitOf_clearedObuf (j : Nat) : obufBitOf (clearedObuf cfg) j = false := by
  unfold obufBitOf; rw [lookup_clearedObuf]; split <;> simp

/-- Setting a bit of the output string sets that bit and no other. -/
theorem obufBitOf_setObufBit (m : Mem 8) (j k : Nat) :
    obufBitOf (setObufBit cfg m j) k = (decide (k = j) || obufBitOf m k) := by
  unfold obufBitOf
  rw [lookup_setObufBit]
  split
  · next h =>
    have hk : (k = j) ↔ (7 - k % 8 = 7 - j % 8) := by omega
    simp only [Option.getD_some, BitVec.getLsbD_or, BitVec.getLsbD_shiftLeft, ← h, Bool.or_comm, hk]
    congr 1
    have h1 : 7 - k % 8 < 8 := by omega
    have h2 : 7 - j % 8 < 8 := by omega
    generalize 7 - k % 8 = a at *
    generalize 7 - j % 8 = b at *
    have := (by decide : ∀ a b : Fin 8, ((decide (a.val < 8) && !decide (a.val < b.val) &&
      (1#8).getLsbD (a.val - b.val)) = decide (a.val = b.val)))
    exact this ⟨a, h1⟩ ⟨b, h2⟩
  · next h => have : k ≠ j := fun e => h (by rw [e]); simp [this]

/-- The top nibble after a shift is the surviving predecessor (R162). -/
theorem topNibble_shift (r : BitVec 8) (d : Bool) :
    (((r >>> 1) ||| (if d then 0x80 else 0)).extractLsb' 4 4).toNat =
      (r.extractLsb' 4 4).toNat / 2 + (if d then 8 else 0) := by
  revert r d; decide +kernel

/-- The walk lists no byte outside OBUF and keeps every byte that was listed. -/
theorem written_walk (hist : Nat → HistWord) (p : Nat) (r : BitVec 8) (c : Nat) (out : Mem 8) (k : Nat)
    (h : Mem.written out k = true) : Mem.written (walk cfg hist p r c out) k = true := by
  induction p generalizing r c out with
  | zero => exact h
  | succ p ih =>
    refine ih _ _ _ ?_
    split
    · unfold Mem.written; rw [lookup_setObufBit]; split
      · rfl
      · exact h
    · exact h

theorem wf_walk (hist : Nat → HistWord) (p : Nat) (r : BitVec 8) (c : Nat) (out : Mem 8)
    (h : Mem.wf (obufSpace cfg) out) (hp : p ≤ c) (hc : c ≤ 8 * cfg.obufBytes) :
    Mem.wf (obufSpace cfg) (walk cfg hist p r c out) := by
  induction p generalizing r c out with
  | zero => exact h
  | succ p ih =>
    refine ih _ _ _ ?_ (by omega) (by omega)
    split
    · exact wf_setObufBit h (by omega)
    · exact h

/-- The walk sets no bit outside the `p` positions below its cursor. -/
theorem obufBitOf_walk_outside (hist : Nat → HistWord) (p : Nat) (r : BitVec 8) (c : Nat) (out : Mem 8) {j : Nat}
    (hp : p ≤ c) (hj : j < c - p ∨ c ≤ j) : obufBitOf (walk cfg hist p r c out) j = obufBitOf out j := by
  induction p generalizing r c out with
  | zero => rfl
  | succ p ih =>
    simp only [walk]
    rw [ih _ _ _ (by omega) (by omega)]
    split
    · rw [obufBitOf_setObufBit, decide_eq_false (by omega), Bool.false_or]
    · rfl

/-- The first position the walk writes holds the decision bit of the register's top nibble (R161, R162). -/
theorem obufBitOf_walk_first (hist : Nat → HistWord) (p : Nat) (r : BitVec 8) (c : Nat) (out : Mem 8)
    (hp : p + 1 ≤ c) :
    obufBitOf (walk cfg hist (p + 1) r c out) (c - 1) =
      ((hist p).getLsbD (r.extractLsb' 4 4).toNat || obufBitOf out (c - 1)) := by
  simp only [walk]
  rw [obufBitOf_walk_outside _ _ _ _ _ (by omega) (by omega)]
  split
  · next h => rw [obufBitOf_setObufBit, h]; simp
  · next h => rw [Bool.not_eq_true] at h; rw [h, Bool.false_or]

/-- The walk of `p` words only reads those words. -/
theorem walk_congr {hist hist' : Nat → HistWord} {p : Nat} (h : ∀ k, k < p → hist k = hist' k) (r : BitVec 8) (c : Nat)
    (out : Mem 8) : walk cfg hist p r c out = walk cfg hist' p r c out := by
  induction p generalizing r c out with
  | zero => rfl
  | succ p ih =>
    simp only [walk, h p (Nat.lt_succ_self p)]
    exact ih (fun k hk => h k (Nat.lt_succ_of_lt hk)) _ _ _

theorem written_chainback (n x : Nat) (s : State cfg) {k : Nat} (hk : k < cfg.obufBytes) :
    Mem.written (chainback n x s).obuf k = true :=
  written_walk _ _ _ _ _ _ (by simp [Mem.written, hk])

theorem wf_chainback {n x : Nat} {s : State cfg} (hx : x ≤ cfg.histLen) (hn : n ≤ x + 4) :
    Mem.wf (obufSpace cfg) (chainback n x s).obuf := by
  have h1 : cfg.obufBytes = (cfg.histLen + (Config.constraintLength - 1) + 7) / 8 := rfl
  have h2 : Config.constraintLength = 5 := rfl
  exact wf_walk _ _ _ _ _ wf_clearedObuf (by omega) (by omega)

/-! ## The run of steps -/

@[simp] theorem runSteps_ibuf (e : Nat → SoftBit) (n : Nat) (s : State cfg) : (runSteps e n s).ibuf = s.ibuf := by
  induction n with
  | zero => rfl
  | succ n ih => simpa [runSteps] using ih

@[simp] theorem runSteps_pbuf (e : Nat → SoftBit) (n : Nat) (s : State cfg) : (runSteps e n s).pbuf = s.pbuf := by
  induction n with
  | zero => rfl
  | succ n ih => simpa [runSteps] using ih

@[simp] theorem runSteps_obuf (e : Nat → SoftBit) (n : Nat) (s : State cfg) : (runSteps e n s).obuf = s.obuf := by
  induction n with
  | zero => rfl
  | succ n ih => simpa [runSteps] using ih

@[simp] theorem runSteps_host (e : Nat → SoftBit) (n : Nat) (s : State cfg) : (runSteps e n s).host = s.host := by
  induction n with
  | zero => rfl
  | succ n ih => simpa [runSteps] using ih

@[simp] theorem runSteps_response (e : Nat → SoftBit) (n : Nat) (s : State cfg) :
    (runSteps e n s).response = s.response := by
  induction n with
  | zero => rfl
  | succ n ih => simpa [runSteps] using ih

@[simp] theorem runSteps_epoch (e : Nat → SoftBit) (n : Nat) (s : State cfg) : (runSteps e n s).epoch = s.epoch := by
  induction n with
  | zero => rfl
  | succ n ih => simpa [runSteps] using ih

theorem runSteps_succ (e : Nat → SoftBit) (n : Nat) (s : State cfg) :
    runSteps e (n + 1) s = trellisStep n (e (2 * n)) (e (2 * n + 1)) (runSteps e n s) := rfl

theorem runSteps_phase_succ (e : Nat → SoftBit) (n : Nat) (s : State cfg) : (runSteps e (n + 1) s).phase = .accum := rfl

/-- A run of `n` steps reads the first 2n soft bits only. -/
theorem runSteps_congr {e e' : Nat → SoftBit} {n : Nat} (h : ∀ k, k < 2 * n → e k = e' k) (s : State cfg) :
    runSteps e n s = runSteps e' n s := by
  induction n with
  | zero => rfl
  | succ n ih =>
    rw [runSteps_succ, runSteps_succ, h _ (by omega), h _ (by omega), ih fun k hk => h k (by omega)]

/-- A run of `n` steps leaves the history words from n on alone. -/
theorem readHist_runSteps_of_ge (e : Nat → SoftBit) {n p : Nat} (s : State cfg) (h : n ≤ p) :
    (runSteps e n s).readHist p = s.readHist p := by
  induction n with
  | zero => rfl
  | succ n ih => rw [runSteps_succ, readHist_trellisStep, if_neg (by omega), ih (by omega)]

theorem wf_hist_trellisStep {n : Nat} {s0 s1 : SoftBit} {s : State cfg} (h : Mem.wf (histSpace cfg) s.hist)
    (hn : n < cfg.histLen) : Mem.wf (histSpace cfg) (trellisStep n s0 s1 s).hist :=
  Mem.wf_write h _ hn

theorem wf_hist_runSteps {e : Nat → SoftBit} {n : Nat} {s : State cfg} (h : Mem.wf (histSpace cfg) s.hist)
    (hn : n ≤ cfg.histLen) : Mem.wf (histSpace cfg) (runSteps e n s).hist := by
  induction n with
  | zero => exact h
  | succ n ih => exact wf_hist_trellisStep (ih (by omega)) (by omega)

/-! ## The decode -/

@[simp] theorem decodePairs_prev (e : Nat → SoftBit) (n : Nat) (s : State cfg) :
    (decodePairs e n s).prev = (runSteps e n s.resetDecoder).prev := rfl

@[simp] theorem decodePairs_curr (e : Nat → SoftBit) (n : Nat) (s : State cfg) :
    (decodePairs e n s).curr = (runSteps e n s.resetDecoder).curr := rfl

@[simp] theorem decodePairs_hist (e : Nat → SoftBit) (n : Nat) (s : State cfg) :
    (decodePairs e n s).hist = (runSteps e n s.resetDecoder).hist := rfl

@[simp] theorem decodePairs_phase (e : Nat → SoftBit) (n : Nat) (s : State cfg) : (decodePairs e n s).phase = .chained :=
  rfl

@[simp] theorem decodePairs_ibuf (e : Nat → SoftBit) (n : Nat) (s : State cfg) : (decodePairs e n s).ibuf = s.ibuf := by
  simp [decodePairs]

@[simp] theorem decodePairs_pbuf (e : Nat → SoftBit) (n : Nat) (s : State cfg) : (decodePairs e n s).pbuf = s.pbuf := by
  simp [decodePairs]

@[simp] theorem decodePairs_host (e : Nat → SoftBit) (n : Nat) (s : State cfg) : (decodePairs e n s).host = s.host := by
  simp [decodePairs]

@[simp] theorem decodePairs_epoch (e : Nat → SoftBit) (n : Nat) (s : State cfg) :
    (decodePairs e n s).epoch = s.epoch := by
  simp [decodePairs]

/-- A decode of `n` pairs reads the first 2n soft bits only. -/
theorem decodePairs_congr {e e' : Nat → SoftBit} {n : Nat} (h : ∀ k, k < 2 * n → e k = e' k) (s : State cfg) :
    decodePairs e n s = decodePairs e' n s := by
  rw [decodePairs, decodePairs, runSteps_congr h]

/-! ## The expansion (43_punctured_adapter.md R192, R193) -/

theorem length_expandFrom (kept : Nat → Bool) (input : Nat → SoftBit) (pLen turns i p : Nat) :
    (expandFrom cfg kept input pLen turns i p).length = turns := by
  induction turns generalizing i p with
  | zero => rfl
  | succ turns ih => simp only [expandFrom]; split <;> simp [ih]

/-- The expanded length never exceeds the room there is. -/
theorem expandedLengthFrom_le {kept : Nat → Bool} {inLen pLen room i u p v : Nat}
    (h : expandedLengthFrom kept inLen pLen room i u p = some v) : u ≤ v ∧ v ≤ u + room := by
  induction room generalizing i u p with
  | zero => simp only [expandedLengthFrom] at h; split at h <;> cases h; omega
  | succ room ih =>
    simp only [expandedLengthFrom] at h
    split at h
    · have := ih h; omega
    · cases h; omega

theorem expandedLength_le {s : State cfg} {inLen pLen u : Nat} (h : expandedLength s inLen pLen = some u) :
    u ≤ cfg.maxLen := by
  have := (expandedLengthFrom_le h).2; omega

end Sys2Proof.Machine
end

