-- ==== Sys2Proof/Tests/Slice0.lean ====
section
/-! SUPPORT. The model's own tests: the WellFormed smoke test, every command's word written out from 30_encoding.md R74
and 95_test_vectors.md section 7, one-step vectors of 95_test_vectors.md sections 3 to 8, and a witness for the
hypotheses of every statement that has some. Expected values are the spec's. -/

namespace Sys2Proof.Machine.Tests

/-! ## WellFormed refuses an operand that its field cannot hold -/

theorem test_illformed_step_position : (Instr.step 65536 0 0).wellFormed = false := by decide
theorem test_illformed_chb_position : (Instr.chb 65536 0).wellFormed = false := by decide
theorem test_illformed_chb_bitLength : (Instr.chb 0 65536).wellFormed = false := by decide
theorem test_illformed_dec_len : (Instr.dec 65536).wellFormed = false := by decide
theorem test_illformed_decp_inLen : (Instr.decp 65536 1).wellFormed = false := by decide
theorem test_illformed_decp_pLen : (Instr.decp 0 256).wellFormed = false := by decide
theorem test_illformed_slc_high : (Instr.slc 32768).wellFormed = false := by decide
theorem test_illformed_slc_low : (Instr.slc (-32769)).wellFormed = false := by decide
theorem test_illformed_rdt : (Instr.rdt 65536).wellFormed = false := by decide
theorem test_illformed_ldi : (Instr.ldi 65536 0).wellFormed = false := by decide
theorem test_illformed_ldp : (Instr.ldp 65536 0).wellFormed = false := by decide
theorem test_illformed_rdo : (Instr.rdo 65536).wellFormed = false := by decide
theorem test_illformed_rdm : (Instr.rdm 65536).wellFormed = false := by decide
theorem test_illformed_rdh : (Instr.rdh 65536).wellFormed = false := by decide

/-! ## Words written out from the spec (95_test_vectors.md section 7) -/

theorem test_decode_rst : decode 0x0100000000000000 = .ok .rst := by decide
theorem test_decode_step : decode 0x02000003FFFF0000 = .ok (.step 3 0xFFFF 0) := by decide
theorem test_decode_chb : decode 0x0300000800140000 = .ok (.chb 8 20) := by decide
theorem test_decode_dec : decode 0x0400002800000000 = .ok (.dec 40) := by decide
theorem test_decode_decp : decode 0x0508002300000000 = .ok (.decp 35 8) := by decide
theorem test_decode_slc : decode 0x06000000F0010000 = .ok (.slc (-4095)) := by decide
theorem test_decode_rdt : decode 0x0700000500000000 = .ok (.rdt 5) := by decide
theorem test_decode_ldi : decode 0x1000000D50000000 = .ok (.ldi 13 0x5000) := by decide
theorem test_decode_ldp : decode 0x1100000300000000 = .ok (.ldp 3 0) := by decide
theorem test_decode_rdo : decode 0x1200000100000000 = .ok (.rdo 1) := by decide
theorem test_decode_rdm : decode 0x1300000000000000 = .ok (.rdm 0) := by decide
theorem test_decode_rdh : decode 0x1400000500000000 = .ok (.rdh 5) := by decide
theorem test_decode_rds : decode 0x1500000000000000 = .ok .rds := by decide

/-- The illegal words of section 7, each by its reason. -/
theorem test_decode_illegal :
    decode 0x0000000000000000 = .error (.undefinedOpcode 0x00) ∧
    decode 0x0800000000000000 = .error (.undefinedOpcode 0x08) ∧
    decode 0x1600000000000000 = .error (.undefinedOpcode 0x16) ∧
    decode 0xFFFFFFFFFFFFFFFF = .error (.undefinedOpcode 0xFF) ∧
    decode 0x0100000000000001 = .error (.mustBeZero 0x01) ∧
    decode 0x0201000000000000 = .error (.mustBeZero 0x02) ∧
    decode 0x0400002800000001 = .error (.mustBeZero 0x04) ∧
    decode 0x0500002300010000 = .error (.mustBeZero 0x05) ∧
    decode 0x0600000100000000 = .error (.mustBeZero 0x06) ∧
    decode 0x1100000000000002 = .error (.mustBeZero 0x11) ∧
    decode 0x1500000100000000 = .error (.mustBeZero 0x15) := by decide

theorem test_encode_words :
    encode (.step 3 0xFFFF 0) = 0x02000003FFFF0000 ∧ encode (.slc (-4095)) = 0x06000000F0010000 ∧
    encode (.decp 35 8) = 0x0508002300000000 ∧ encode (.ldp 0 1) = 0x1100000000000001 := by decide

/-! ## One step on a small state -/

/-- The response word to one command word. -/
def answer (w : Word64) (s : State) : Option Word64 :=
  match step { s with host := [.command w] } with
  | .next t => t.response.map (·.word)
  | .fault _ => none
  | .refused _ => none

/-- A part of the state after one command. -/
def afterCommand {α : Type} (i : Instr) (s : State) (part : State → α) : Option α :=
  match exec i s with
  | .next t => some (part t)
  | .fault _ => none
  | .refused _ => none

/-- The end of program P1 before its chainback (section 8): history and metrics as its tables list them. -/
def endOfP1 : State :=
  { State.reset with
    prev := #v[0, 131070, 196605, 196605, 262140, 262140, 196605, 262140, 327675, 327675, 196605, 262140, 327675,
      196605, 327675, 327675]
    hist := [(0, 0xEB7C), (1, 0x4DE0), (2, 0xB200), (4, 0xEFFD), (5, 0x0B40), (6, 0x7FFB), (7, 0xFB7F)]
    phase := .accum }

/-- A state in PHASE CHAINED whose OBUF holds 00 B0, as after P1. -/
def chained : State := { endOfP1 with phase := .chained, obuf := setObufBit Config.params (setObufBit Config.params (clearedObuf Config.params) 8) 10 }

/-- IBUF holding a list from index 0. -/
def withInput (l : List SoftBit) (s : State) : State := { s with ibuf := (List.range l.length).zip l }

/-- PBUF holding a list from index 0. -/
def withPattern (l : List (BitVec 1)) (s : State) : State := { s with pbuf := (List.range l.length).zip l }

/-- V-STEP-2: bit 15 down of HIST[0] = EB7C, prev[0] = 131070, prev[1] = 0. -/
theorem test_step_ones : afterCommand (.step 0 0xFFFF 0xFFFF) .reset
    (fun t => (t.readHist 0, metricAt t.prev 0, metricAt t.prev 1, metricAt t.prev 2)) =
    some (0xEB7C, 131070, 0, 0x40000000 + 65535) := by decide +kernel

/-- V-STEP-5: the ties give decision bit 1. -/
theorem test_step_ties : afterCommand (.step 0 0x7FFF 0x8000) .reset
    (fun t => (t.readHist 0, metricAt t.prev 0, metricAt t.prev 15)) =
    some (0x7DE8, 65535, 0x40000000 + 65534) := by decide +kernel

/-- V-STEP-4. -/
theorem test_step_noise : afterCommand (.step 0 0x1234 0xABCD) .reset
    (fun t => (t.readHist 0, metricAt t.prev 0, metricAt t.prev 1, t.curr == State.reset.prev)) =
    some (0x55A8, 0xBE01, 0x141FD, true) := by decide +kernel

/-- V-DEC-12, V-CHB-12: the checks of STEP. -/
theorem test_step_rejections : answer 0x020000F400000000 .reset = some 0x10000000FFFFFFFF ∧
    answer 0x0200000800000000 chained = some 0x48000000FFFFFFFF := by decide +kernel

/-- V-CHB-1: OBUF = 00 B0, cost 0. -/
theorem test_chb : answer 0x0300000800080000 endOfP1 = some 0x0800000000000000 ∧
    afterCommand (.chb 8 8) endOfP1 (fun t => (t.readObuf 0, t.readObuf 1, t.readObuf 2)) = some (0, 0xB0, 0) := by
  decide +kernel

/-- V-CHB-3, V-CHB-5, V-CHB-6. -/
theorem test_chb_placement :
    afterCommand (.chb 8 20) endOfP1 (fun t => (t.readObuf 1, t.readObuf 2)) = some (0, 0x0B) ∧
    afterCommand (.chb 8 4) endOfP1 (fun t => (t.readObuf 0, t.readObuf 1)) = some (0x0B, 0) ∧
    answer 0x0300000800030000 chained = some 0x38000000FFFFFFFF := by decide +kernel

/-- V-DEC-6: the frame M3. -/
theorem test_dec_frame_m3 : afterCommand (.dec 10)
    (withInput [0xFFFF, 0xFFFF, 0, 0xFFFF, 0, 0xFFFF, 0xFFFF, 0, 0xFFFF, 0xFFFF] .reset)
    (fun t => (t.response, t.readObuf 0, t.readObuf 1, t.readObuf 2)) =
    some (some ⟨.ok, .chained, 0⟩, 0, 0x80, 0) := by decide +kernel

/-- V-DEC-10: eight erasures. -/
theorem test_dec_erasures : afterCommand (.dec 8) (withInput (List.replicate 8 0x7FFF) .reset)
    (fun t => (t.response.map (·.val), t.readHist 0, t.readHist 1, t.readHist 2, t.readHist 3)) =
    some (some 262136, 0xD7BC, 0x17B0, 0x1700, 0) := by decide +kernel

/-- V-P-6 on the frame M3: an all-ones pattern is DEC. -/
theorem test_decp_all_kept : afterCommand (.decp 10 1)
    (withPattern [1] (withInput [0xFFFF, 0xFFFF, 0, 0xFFFF, 0, 0xFFFF, 0xFFFF, 0, 0xFFFF, 0xFFFF] .reset))
    (fun t => (t.response.map (·.val), t.readObuf 1)) = some (some 0, 0x80) := by decide +kernel

/-- V-P-7, V-P-8, V-P-9. -/
theorem test_decp_rejections :
    answer 0x0503000300000000 (withPattern [0, 0, 0] .reset) = some 0x10000000FFFFFFFF ∧
    answer 0x0500000300000000 .reset = some 0x30000000FFFFFFFF ∧
    answer 0x0501000000000000 (withPattern [0] .reset) = some 0x0800000000000000 := by decide +kernel

/-- Section 3: both ramps, the centre, an end. -/
theorem test_slc_ramps : answer 0x06000000D8F00000 .reset = some 0x00000000FFFFB87F ∧
    answer 0x06000000FFFF0000 .reset = some 0x0000000080070000 ∧
    answer 0x0600000017700000 .reset = some 0x0000000000003B7F ∧
    answer 0x0600000080000000 .reset = some 0x00000000FFFFFFFF := by decide +kernel

/-- Section 4. -/
theorem test_rdt : answer 0x0700000400000000 .reset = some 0x00000000FFFF0000 ∧
    answer 0x0700000800000000 .reset = some 0x30000000FFFFFFFF := by decide +kernel

/-- R210's worked example. -/
theorem test_ldi : afterCommand (.ldi 13 0x5000) .reset (fun t => t.readIbuf 13) = some 20480 := by decide +kernel

/-- R211's worked example. -/
theorem test_ldp : afterCommand (.ldp 3 0) .reset (fun t => t.readPbuf 3) = some 0 := by decide +kernel

/-- P5 rows 5 to 9. -/
theorem test_debug_reads : answer 0x1200001F00000000 chained = some 0x38000000FFFFFFFF ∧
    answer 0x1300001000000000 chained = some 0x38000000FFFFFFFF ∧
    answer 0x1200000100000000 chained = some 0x08000000000000A0 ∧
    answer 0x1400000700000000 chained = some 0x080000000000FB7F ∧
    answer 0x1300000100000000 chained = some 0x080000000001FFFE := by decide +kernel

/-- Section 7: the response words of RDS. -/
theorem test_rds : answer 0x1500000000000000 chained = some 0x0800000000F40002 ∧
    answer 0x1500000000000000 .reset = some 0x0000000000F40000 := by decide +kernel

/-- Section 7: ILLEGAL in PHASE RESET and CHAINED. -/
theorem test_illegal_response : answer 0 .reset = some 0x20000000FFFFFFFF ∧
    answer 0 chained = some 0x28000000FFFFFFFF := by decide +kernel

/-- P5 row 10, 11: RST does not clear OBUF. -/
theorem test_rst_keeps_output : afterCommand .rst chained (fun t => (t.readObuf 1, t.phase, metricAt t.prev 1)) =
    some (0xA0, .reset, 0x40000000) := by decide +kernel

/-- The host's two questions: the table word is decoded and is the next thing that runs. -/
theorem test_with_fetch_word : decodeTableWord 64 0x1500000000000000 = some .rds ∧
    step (State.reset.withFetchWord 64 0x1500000000000000) = exec .rds .reset := ⟨by decide, rfl⟩

/-- The rows of R74 are pairwise disjoint by their opcodes. -/
theorem test_rows_have_distinct_opcodes :
    (opcodeTable.map fun r => (r.pattern.extractLsb' 56 8).toNat).Nodup ∧
    ∀ r ∈ opcodeTable, r.mask.extractLsb' 56 8 = 0xFF := by decide

/-! ## Witnesses: a state and operands that meet each statement's hypotheses -/

theorem witness_DecodeOfEncodeIsIdentity :
    (Instr.step 65535 0 0).wellFormed = true ∧ (Instr.slc (-32768)).wellFormed = true ∧
    (Instr.decp 65535 255).wellFormed = true := by decide

theorem witness_AcceptedWordIsEncoding : decode 0x05FFFFFF00000000 = .ok (.decp 65535 255) := by decide

theorem witness_DecoderFollowsMaskAndMatch :
    ∃ r ∈ opcodeTable, r.Selects 0x1100FFFF00000001 ∧ decode 0x1100FFFF00000001 = .ok (.ldp 65535 1) :=
  ⟨⟨"LDP", 0xFFFF0000FFFFFFFE, 0x1100000000000000⟩, by decide, by decide, by decide⟩

theorem witness_StepRunsDecodedCommand :
    State.host { State.reset with host := [.command 0x1500000000000000, .rst none] } =
      .command 0x1500000000000000 :: [.rst none] ∧ decode 0x1500000000000000 = .ok .rds := ⟨rfl, by decide⟩

theorem witness_UnselectedWordIsRejected :
    State.host { State.reset with host := [.command 0x1100000000000002] } = .command 0x1100000000000002 :: [] ∧
      ∀ r ∈ opcodeTable, ¬ r.Selects 0x1100000000000002 := ⟨rfl, by decide⟩

theorem witness_HardwareResetGivesResetState :
    State.host { chained with host := [.rst (some 0x0400000000000000)] } = .rst (some 0x0400000000000000) :: [] := rfl

theorem witness_IdleBlockKeepsItsState : chained.host = [] := rfl

theorem witness_ConfigurationMeetsConstraints : ¬ ({ Config.params with histLen := 9000 } : Params).MeetsR8 ∧
    ¬ ({ Config.params with level3 := 32768 } : Params).MeetsR8 ∧
    ¬ ({ Config.params with metricW := 31 } : Params).MeetsR8 ∧
    ¬ ({ Config.params with metricW := 33 } : Params).FitsFields ∧
    ¬ ((romEntry { Config.params with trellisRom := Config.trellisRomDefault.set 7 ⟨65535, 1⟩ } 7).ideal1 = 0 ∨
      (romEntry { Config.params with trellisRom := Config.trellisRomDefault.set 7 ⟨65535, 1⟩ } 7).ideal1 = 65535) := by
  decide

/-- A state that meets the invariant, in PHASE CHAINED with OBUF written and a command waiting. -/
theorem witness_StepKeepsInvariant :
    ∃ s t : State, s.Inv ∧ s.phase = .chained ∧ step s = .next t ∧ t.phase = .reset :=
  ⟨{ chained with host := [.command 0x0100000000000000] }, _,
    { hist_wf := by decide
      ibuf_wf := by decide
      pbuf_wf := by decide
      obuf_wf := by decide
      obuf_whole := .inr (by decide)
      reset_initial := fun h => by cases h }, rfl, rfl, rfl⟩

theorem witness_MetricsStayInBoundsAfterReset :
    (List.replicate 244 ((243, 0xFFFF, 0) : Nat × SoftBit × SoftBit)).length ≤ Config.params.histLen ∧
    ∀ c ∈ List.replicate 244 ((243, 0xFFFF, 0) : Nat × SoftBit × SoftBit), c.1 < Config.params.histLen := by
  refine ⟨by rw [List.length_replicate]; decide, fun c hc => ?_⟩
  rw [List.eq_of_mem_replicate hc]; decide

/-- Another valid configuration: 31-bit metrics, 12-bit samples in Q3.8, MAXDIST above the default, and a state of it. -/
def otherParams : Params :=
  { Config.params with
    metricW := 31, failCost := 2147483647, maxDist := 131072, sampleW := 12, sampleFrac := 8
    level0 := -768, level1 := -256, level2 := 256, level3 := 768 }

theorem witness_StepAdvancesMetricBounds :
    otherParams.Valid ∧ 2 * Config.softMax ≤ otherParams.maxDist ∧
    ∃ s : State otherParams, s.MetricBounds 0 ∧ 243 < otherParams.histLen ∧ s.phase ≠ .chained :=
  ⟨by decide, by decide, State.resetAt otherParams, ⟨by decide +kernel, by decide +kernel⟩, by decide, by decide⟩

/-- A block of that configuration reads a 12-bit sample: X = 0xF00 is −256 (−1.0), and the bits above must be zero. -/
theorem test_other_sample_width :
    decode 0x060000000F000000 otherParams = .ok (.slc (-256)) ∧
    decode 0x06000000FF000000 otherParams = .error (.mustBeZero 0x06) := by decide

theorem witness_SampleIsFixedPoint :
    (Instr.slc (-32768)).wellFormed = true ∧ (Instr.slc 32767).wellFormed = true := by decide

theorem witness_RejectionChangesNothing :
    ∃ t r, exec (.dec 489) chained = .next t ∧ t.response = some r ∧ r.err ≠ .ok := ⟨_, _, rfl, rfl, by decide⟩

theorem witness_StepChecksInOrder :
    Config.params.histLen ≤ 244 ∧ (243 < Config.params.histLen ∧ chained.phase = .chained) ∧
    (243 < Config.params.histLen ∧ State.reset.phase ≠ .chained) := by decide

theorem witness_ChainbackChecksInOrder :
    (Config.params.histLen < 245 ∨ Config.params.histLen < 0) ∧ (Config.params.histLen < 0 ∨ Config.params.histLen < 245) ∧
    (244 ≤ Config.params.histLen ∧ 239 ≤ Config.params.histLen ∧ 239 + 4 < 244) ∧
    (244 ≤ Config.params.histLen ∧ 240 ≤ Config.params.histLen ∧ 244 ≤ 240 + 4) := by decide

theorem witness_DecodeChecksInOrder :
    Config.params.maxLen < 489 ∧ (487 ≤ Config.params.maxLen ∧ 487 % 2 = 1) ∧ (488 ≤ Config.params.maxLen ∧ 488 % 2 = 0) := by decide

theorem witness_PuncturedChecksInOrder :
    keptBefore (withPattern [0, 0, 0] .reset) 3 Config.params.maxLen < 3 ∧
    (∀ p, p < 3 → (withPattern [0, 0, 0] .reset).readPbuf p ≠ 1) ∧ Config.params.maxLen < 489 ∧
    expandedLength (withPattern [1, 0] .reset) 2 2 = some 3 ∧
    expandedLength (withPattern [0, 1] .reset) 2 2 = some 4 := by decide +kernel

theorem witness_IndexOutsideSpaceIsRejected :
    Config.params.ibufDepth ≤ 488 ∧ Config.params.pbufDepth ≤ 255 ∧ Config.params.obufBytes ≤ 31 ∧ Config.params.histLen ≤ 244 := by decide

theorem witness_StepSelectsSurvivors : 243 < Config.params.histLen ∧ endOfP1.phase ≠ .chained := by decide

theorem witness_ButterfliesAreIndependent :
    ∃ s s' t t' : State, s.prev ≠ s'.prev ∧ metricAt s.prev 0 = metricAt s'.prev 0 ∧
      metricAt s.prev 8 = metricAt s'.prev 8 ∧
      exec (.step 0 1 2) s = .next t ∧ t.response = some ⟨.ok, .accum, 0⟩ ∧
      exec (.step 9 1 2) s' = .next t' ∧ t'.response = some ⟨.ok, .accum, 0⟩ :=
  ⟨endOfP1, { endOfP1 with prev := endOfP1.prev.set 5 77 }, _, _, by decide, by decide, by decide, rfl, rfl, rfl, rfl⟩

theorem witness_StepIsLeastTransition :
    243 < Config.params.histLen ∧ endOfP1.phase ≠ .chained ∧
    (metricAt endOfP1.prev 7).toNat + transitionDistance 7 true 0x1234 0xABCD < 2 ^ 32 ∧
    (metricAt endOfP1.prev 15).toNat + transitionDistance 15 true 0x1234 0xABCD < 2 ^ 32 := by decide +kernel

theorem witness_ChainbackReturnsLeastMetric :
    (244 ≤ Config.params.histLen ∧ 244 ≤ 240 + 4) ∧ (0 ≤ Config.params.histLen ∧ 0 ≤ 244 + 4) ∧ 244 ≤ Config.params.histLen := by decide

theorem witness_ChainbackWalksSurvivorPath :
    244 ≤ Config.params.histLen ∧ 240 ≤ Config.params.histLen ∧ 244 ≤ 240 + 4 ∧ (247 < 8 * Config.params.obufBytes ∧ 240 + 4 ≤ 247) ∧
    (3 < 8 * Config.params.obufBytes ∧ 3 < 8 + 4 - 8) := by decide

theorem witness_ChainbackRepeats : 8 ≤ Config.params.histLen ∧ 8 ≤ 8 + 4 ∧ chained.hist = endOfP1.hist ∧
    chained.prev = endOfP1.prev ∧ chained.obuf ≠ endOfP1.obuf := by decide +kernel

/-- A state that meets the invariant in PHASE RESET, with an input element written. -/
theorem witness_ChainbackWithoutStepsIsEmpty :
    ∃ s : State, s.Inv ∧ s.phase = .reset ∧ s.ibuf ≠ [] ∧ 244 ≤ Config.params.histLen ∧ 244 ≤ 244 + 4 :=
  ⟨withInput [7] .reset,
    { hist_wf := by decide
      ibuf_wf := by decide
      pbuf_wf := by decide
      obuf_wf := by decide
      obuf_whole := .inl rfl
      reset_initial := fun _ => ⟨by decide, by decide, by decide, fun _ => rfl⟩ },
    rfl, by decide, by decide, by decide⟩

theorem witness_DecodeEqualsItsExpansion : 488 ≤ Config.params.maxLen ∧ 488 % 2 = 0 ∧ 0 ≤ Config.params.maxLen := by decide

theorem witness_DecodeWritesAndFrame : 488 ≤ Config.params.maxLen ∧ 488 % 2 = 0 ∧ 488 / 2 ≤ 244 ∧ 30 < Config.params.obufBytes := by
  decide

/-- Two states that differ in IBUF above the length, in PHASE and in the metrics. -/
theorem witness_DecodeDependsOnItsInputAlone :
    (∀ k, k < 2 → (withInput [5, 6, 7] chained).readIbuf k = (withInput [5, 6] State.reset).readIbuf k) ∧
    (∀ k, k < 1 → (withPattern [1, 0] (withInput [5, 6, 7] chained)).readPbuf k =
      (withPattern [1] (withInput [5, 6] State.reset)).readPbuf k) ∧
    ∃ t v, exec (.decp 2 1) (withPattern [1] (withInput [5, 6] State.reset)) = .next t ∧
      t.response = some ⟨.ok, .chained, v⟩ := by
  refine ⟨by decide +kernel, by decide +kernel, _, _, rfl, rfl⟩

theorem witness_ZeroNoiseRoundTrip :
    ∃ bits : List Bool, bits.length ≤ Config.params.histLen ∧
      (∀ k, k < bits.length → bits.length ≤ k + 4 → bits.getD k false = false) ∧
      bits ≠ List.replicate 5 false ∧
      ∀ k, k < 2 * bits.length →
        (withInput [0xFFFF, 0xFFFF, 0, 0xFFFF, 0, 0xFFFF, 0xFFFF, 0, 0xFFFF, 0xFFFF] .reset).readIbuf k =
          (referenceEncode 0 bits).getD k 0 :=
  ⟨[true, false, false, false, false], by decide +kernel⟩

theorem witness_DecodeCostIsLeastPathDistance : 244 ≤ Config.params.histLen ∧ 0 ≤ Config.params.histLen := by decide

theorem witness_DecodedBitsAreLeastFlushedPath :
    244 ≤ Config.params.histLen ∧ [true, false, false, false, false].length = 5 ∧
    encoderState 0 [true, false, false, false, false] = 0 := by decide

theorem witness_ExpansionFollowsPattern : (8 : Nat) ≠ 0 ∧ 3 < 5 := by decide

theorem witness_PuncturedDecodeIsDecodeOfExpansion :
    expandedLength (withPattern [0, 1] (withInput [9, 0xFFFF] .reset)) 2 2 = some 4 ∧
    ∀ k, k < 4 → Mem.lookup [(0, 32767), (1, 9), (2, 32767), (3, 0xFFFF)] k =
      some ((expansion (withPattern [0, 1] (withInput [9, 0xFFFF] .reset)) 2 4).getD k 0) := by decide +kernel

theorem witness_AllKeptPatternIsPlainDecode :
    (2 : Nat) ≠ 0 ∧ ∀ p, p < 2 → (withPattern [1, 1] .reset).readPbuf p = 1 := by decide +kernel

theorem witness_CorrectedCostNeverWraps :
    expandedLength (withPattern [0, 1] .reset) 244 2 = some 488 ∧ 488 % 2 = 0 := by decide +kernel

theorem witness_SlicerFollowsItsCurves :
    (Config.params.level3 ≤ 32767 ∧ (-32768 : Int) < Config.params.level0) ∧
    (Config.params.level1 < 0 ∧ 0 < Config.params.level2) := by decide

theorem witness_SlicerCalibrationPoints :
    Config.params.level3 < 12289 ∧ -12289 < Config.params.level0 := by decide

theorem witness_LdiStoresOneElement : 487 < Config.params.ibufDepth ∧ Config.params.ibufDepth ≤ 488 := by decide

theorem witness_LdpStoresOneBit : 254 < Config.params.pbufDepth ∧ Config.params.pbufDepth ≤ 255 := by decide

theorem witness_DebugReadsReturnState : 30 < Config.params.obufBytes ∧ 243 < Config.params.histLen := by decide

theorem witness_ReadsHaveNoSideEffect : ∃ t, exec (.rdm 15) chained = .next t := ⟨_, rfl⟩

theorem witness_EachSpaceHasItsWriters : ∃ t, exec (.chb 8 8) endOfP1 = .next t ∧ t.obuf ≠ endOfP1.obuf :=
  ⟨_, rfl, by decide +kernel⟩

theorem witness_PhaseFollowsItsTable : ∃ t r, exec (.step 0 1 2) endOfP1 = .next t ∧ t.response = some r ∧ r.err = .ok :=
  ⟨_, _, rfl, rfl, rfl⟩

theorem witness_WrittenReadsHideFreeValues :
    nextActionSafe { withInput [5, 6] State.reset with host := [.command 0x0400000200000000] } = true ∧
    nextActionSafe { State.reset with host := [.command 0x0400000200000000] } = false ∧
    nextActionSafe { chained with host := [.command 0x1200001E00000000] } = true := by decide +kernel

end Sys2Proof.Machine.Tests
end

section
/-! PROOFS of the scope's statements (00_scope.md R7, R8): the configuration and its checks, and the metric bounds that
one step of any valid configuration advances. -/

namespace Sys2Proof.Machine

variable {cfg : Params}

/-! ## Building a block (R8) -/

theorem coreOf?_of_valid (h : cfg.Valid) : coreOf? cfg = some (coreAt cfg) := by
  simp only [coreOf?, Params.build?, if_pos h, Option.map_some]

theorem coreOf?_of_not_valid (h : ¬ cfg.Valid) : coreOf? cfg = none := by
  simp only [coreOf?, Params.build?, if_neg h, Option.map_none]

theorem params_valid : Config.params.Valid := by decide

theorem coreAt_params : coreAt Config.params = Sys2Proof.core := by
  rw [coreAt, funext stepWith_execAt]; rfl

/-- Settles O11: the defaults are valid, and each failed check makes `Valid` false. -/
theorem configurationMeetsConstraints : Obligations.ConfigurationMeetsConstraints := by
  refine ⟨params_valid.1, by rw [coreOf?_of_valid params_valid, coreAt_params], ?_, ?_, ?_⟩
  · exact fun cfg hbad => coreOf?_of_not_valid fun ⟨hr8, _, _⟩ => hbad hr8
  · exact fun cfg hbad => coreOf?_of_not_valid fun ⟨_, hfits, _⟩ => hbad hfits
  · intro cfg i hi hbad
    refine coreOf?_of_not_valid fun ⟨_, _, hrom⟩ => ?_
    obtain ⟨h0, h1⟩ := romEntry_ideal_of_romIsIdeal hrom hi
    exact hbad.elim (· h0) (· h1)

/-! ## The room that a valid configuration leaves for the metrics (R8 (a), (b)) -/

theorem failCost_lt_two_pow : cfg.MeetsR8 → cfg.failCost < 2 ^ cfg.metricW
  | ⟨_, ⟨_, hfail⟩, _⟩ => hfail

theorem sentinel_add_steps_lt_failCost {n : Nat} (hn : n ≤ cfg.histLen) :
    cfg.MeetsR8 → cfg.initSentinel + n * cfg.maxDist < cfg.failCost
  | ⟨_, ⟨hsum, _⟩, _⟩ => (Nat.add_le_add_left (Nat.mul_le_mul_right cfg.maxDist hn) _).trans_lt hsum

theorem toNat_sentinel (h : cfg.MeetsR8) : cfg.sentinel.toNat = cfg.initSentinel := by
  have hroom := sentinel_add_steps_lt_failCost (Nat.zero_le _) h
  have hfail := failCost_lt_two_pow h
  exact Nat.mod_eq_of_lt (by omega)

/-! ## The new metric of one successor (42_viterbi_decoder.md R151, R153, R175) -/

/-- A branch metric, whichever of the two, is at most MAXDIST, also once it is taken as a metric (R150, R151). -/
theorem toNat_branchMetric_le (h : 2 * Config.softMax ≤ cfg.maxDist) (s0 s1 : SoftBit) (i : Nat) (c : Prop)
    [Decidable c] :
    (if c then BitVec.ofNat cfg.metricW (branchMetric0 cfg s0 s1 i)
      else BitVec.ofNat cfg.metricW (branchMetric1 cfg s0 s1 i)).toNat ≤ cfg.maxDist := by
  split
  · exact (Nat.mod_le _ _).trans ((branchMetric0_le cfg s0 s1 i).trans h)
  · exact (Nat.mod_le _ _).trans (branchMetric1_le cfg s0 s1 i)

theorem le_toNat_addMetric {w : Nat} {a b : BitVec w} (h : a.toNat + b.toNat < 2 ^ w) :
    a.toNat ≤ (addMetric a b).toNat := by
  rw [toNat_addMetric, Nat.mod_eq_of_lt h]
  exact Nat.le_add_right _ _

/-- The winner is at most its first predecessor's bound plus MAXDIST; a wrap could only make it less. -/
theorem toNat_survivor_le (hD : 2 * Config.softMax ≤ cfg.maxDist) {prev : Vector cfg.Metric 16} {t hi : Nat}
    (h : (metricAt prev (t / 2)).toNat ≤ hi) (s0 s1 : SoftBit) :
    (survivor cfg prev s0 s1 t).2.toNat ≤ hi + cfg.maxDist := by
  rw [toNat_survivor]
  refine (Nat.min_le_left _ _).trans ?_
  rw [toNat_addMetric]
  exact (Nat.mod_le _ _).trans (Nat.add_le_add h (toNat_branchMetric_le hD s0 s1 _ _))

/-- Where no addition can wrap, the winner is at least what both predecessors are at least. -/
theorem le_toNat_survivor (hD : 2 * Config.softMax ≤ cfg.maxDist) {prev : Vector cfg.Metric 16} {t lo hi : Nat}
    (hw : hi + cfg.maxDist < 2 ^ cfg.metricW)
    (h : lo ≤ (metricAt prev (t / 2)).toNat ∧ (metricAt prev (t / 2)).toNat ≤ hi)
    (h' : lo ≤ (metricAt prev (t / 2 + 8)).toNat ∧ (metricAt prev (t / 2 + 8)).toNat ≤ hi) (s0 s1 : SoftBit) :
    lo ≤ (survivor cfg prev s0 s1 t).2.toNat := by
  have hb := toNat_branchMetric_le hD s0 s1 (t / 2) (t % 2 = 0)
  have hb' := toNat_branchMetric_le hD s0 s1 (t / 2) (¬ t % 2 = 0)
  rw [ite_not] at hb'
  rw [toNat_survivor]
  exact Nat.le_min.mpr ⟨h.1.trans (le_toNat_addMetric (by omega)), h'.1.trans (le_toNat_addMetric (by omega))⟩

/-! ## The bounds of n steps -/

theorem metricAt_initMetrics {k : Nat} (hk : k < 16) :
    metricAt (initMetrics cfg) k = if k = 0 then 0 else cfg.sentinel := by
  simp [initMetrics, hk]

theorem metricAt_trellisStep_prev (position : Nat) (s0 s1 : SoftBit) (s : State cfg) {k : Nat} (hk : k < 16) :
    metricAt (trellisStep position s0 s1 s).prev k = (survivor cfg s.prev s0 s1 k).2 := by
  simp [hk]

theorem State.MetricBounds.of_prev_eq {s t : State cfg} {n : Nat} (h : s.MetricBounds n) (ht : t.prev = s.prev) :
    t.MetricBounds n :=
  ⟨by rw [ht]; exact h.reached, by rw [ht]; exact h.unreached⟩

/-- After RST only state 0 is reached (10_state.md R23). -/
theorem metricBounds_resetDecoder (h : cfg.MeetsR8) (s : State cfg) : s.resetDecoder.MetricBounds 0 where
  reached k hk hreach := by
    obtain rfl : k = 0 := by omega
    simp [metricAt_initMetrics]
  unreached k hk hunreach := by
    have hk0 : k ≠ 0 := by omega
    simp [metricAt_initMetrics hk, hk0, toNat_sentinel h]

/-- One step advances the bounds: a successor t below 2^(n+1) has the reached predecessor t div 2, and every other one
has two unreached predecessors (R152, R158). -/
theorem metricBounds_trellisStep {s : State cfg} {n : Nat} (h : s.MetricBounds n) (hr8 : cfg.MeetsR8)
    (hD : 2 * Config.softMax ≤ cfg.maxDist) (hn : n < cfg.histLen) (position : Nat) (s0 s1 : SoftBit) :
    (trellisStep position s0 s1 s).MetricBounds (n + 1) where
  reached k hk hreach := by
    rw [Nat.pow_succ] at hreach
    rw [metricAt_trellisStep_prev position s0 s1 s hk, Nat.succ_mul]
    exact toNat_survivor_le hD (h.reached (k / 2) (by omega) (by omega)) s0 s1
  unreached k hk hunreach := by
    have hroom := sentinel_add_steps_lt_failCost hn hr8
    rw [Nat.pow_succ] at hunreach
    rw [Nat.succ_mul, ← Nat.add_assoc] at hroom ⊢
    rw [metricAt_trellisStep_prev position s0 s1 s hk]
    have hfirst := h.unreached (k / 2) (by omega) (by omega)
    have hsecond := h.unreached (k / 2 + 8) (by omega) (by omega)
    exact ⟨le_toNat_survivor hD (hroom.trans (failCost_lt_two_pow hr8)) hfirst hsecond s0 s1,
      toNat_survivor_le hD hfirst.2 s0 s1⟩

/-- Within the bounds no metric reaches FAIL_COST (R8 (b)). -/
theorem State.MetricBounds.toNat_lt_failCost {s : State cfg} {n : Nat} (h : s.MetricBounds n) (hr8 : cfg.MeetsR8)
    (hn : n ≤ cfg.histLen) {k : Nat} (hk : k < 16) : (metricAt s.prev k).toNat < cfg.failCost := by
  have hroom := sentinel_add_steps_lt_failCost hn hr8
  rcases Nat.lt_or_ge k (2 ^ n) with hreach | hunreach
  · have := h.reached k hk hreach
    omega
  · have := h.unreached k hk hunreach
    omega

/-! ## RST and an accepted STEP at any configuration -/

theorem execAt_rst (s : State cfg) : execAt .rst s = .next (s.resetDecoder.reply 0) := rfl

theorem execAt_step_of_accepted {s : State cfg} {position : Nat} (hpos : position < cfg.histLen)
    (hphase : s.phase ≠ .chained) (s0 s1 : SoftBit) :
    execAt (.step position s0 s1) s = .next ((trellisStep position s0 s1 s).reply 0) := by
  rw [execAt, execStep, checkStep_eq_none.mpr ⟨hpos, hphase⟩, guarded_none, accept_eq]

/-- Settles O53, from the bounds' three facts: RST establishes them, a step advances them, and they stay below
FAIL_COST. -/
theorem stepAdvancesMetricBounds : Obligations.StepAdvancesMetricBounds := by
  rintro cfg ⟨hr8, -, -⟩ hD
  refine ⟨fun s => ?_, fun s n position s0 s1 hn hbounds hpos hphase => ?_, fun s n hn hbounds k hk => ?_⟩
  · exact ⟨_, execAt_rst s, (metricBounds_resetDecoder hr8 s).of_prev_eq rfl⟩
  · exact ⟨_, execAt_step_of_accepted hpos hphase s0 s1,
      (metricBounds_trellisStep hbounds hr8 hD hn position s0 s1).of_prev_eq rfl⟩
  · exact hbounds.toNat_lt_failCost hr8 hn hk

end Sys2Proof.Machine
end

section
/-! PROOFS of the state's statements (10_state.md R23, R28, R33, R40): one inversion lemma for all thirteen commands, the
initial condition, the invariant of every step, and PHASE. -/

namespace Sys2Proof.Machine

/-! ## What a command does, for all thirteen at once -/

/-- The checks of a command, in one place (60_exceptions.md R237); a command without checks is always accepted. -/
def commandCheck (i : Instr) (s : State) : Option ErrCode :=
  match i with
  | .step position _ _ => checkStep Config.params position s.phase
  | .chb position bitLength => checkChb Config.params position bitLength
  | .dec len => checkDec Config.params len
  | .decp inLen pLen => checkDecp s inLen pLen
  | .rdt halfState => checkIndex halfState 8
  | .ldi index _ => checkIndex index Config.params.ibufDepth
  | .ldp index _ => checkIndex index Config.params.pbufDepth
  | .rdo index => checkIndex index Config.params.obufBytes
  | .rdm state => checkIndex state 16
  | .rdh position => checkIndex position Config.params.histLen
  | .rst | .slc _ | .rds => none

/-- The state an accepted command leaves, its response aside. -/
def commandEffect (i : Instr) (s : State) : State :=
  match i with
  | .rst => s.resetDecoder
  | .step position s0 s1 => trellisStep position s0 s1 s
  | .chb position bitLength => chainback position bitLength s
  | .dec len => decodePairs s.readIbuf (len / 2) s
  | .decp inLen pLen =>
    let u := (expandedLength s inLen pLen).getD 0
    decodePairs (expandedBit s pLen u) (u / 2) s
  | .ldi index value => s.writeIbuf index value
  | .ldp index bit => s.writePbuf index bit
  | .slc _ | .rdt _ | .rdo _ | .rdm _ | .rdh _ | .rds => s

/-- Every command is its checks, then its effect with some returned value. -/
theorem exec_eq_guarded (i : Instr) (s : State) :
    ∃ v, exec i s = guarded (commandCheck i s) s (accept v (commandEffect i s)) := by
  cases i <;> exact ⟨_, rfl⟩

theorem commandCheck_ne_ok {i : Instr} {s : State} {e : ErrCode} (h : commandCheck i s = some e) : e ≠ .ok := by
  cases i with
  | step => exact checkStep_ne_ok h
  | chb => exact checkChb_ne_ok h
  | dec => exact checkDec_ne_ok h
  | decp => exact checkDecp_ne_ok h
  | rdt | ldi | ldp | rdo | rdm | rdh => exact checkIndex_ne_ok h
  | rst | slc | rds => cases h

/-- A command either fails a check and is rejected, or is accepted and answers its effect (60_exceptions.md R232). -/
theorem exec_cases {i : Instr} {s t : State} (h : exec i s = .next t) :
    (∃ e, e ≠ .ok ∧ t = s.reject e) ∨ (commandCheck i s = none ∧ ∃ v, t = (commandEffect i s).reply v) := by
  obtain ⟨v, hv⟩ := exec_eq_guarded i s
  rcases guarded_accept_cases (hv.symm.trans h) with ⟨e, hc, ht⟩ | ⟨hc, ht⟩
  · exact .inl ⟨e, commandCheck_ne_ok hc, ht⟩
  · exact .inr ⟨hc, v, ht⟩

/-! ## PHASE (10_state.md R28) -/

/-- Settles O51: a rejection keeps PHASE, and each command's effect sets it as the table says. -/
theorem phaseFollowsItsTable : Obligations.PhaseFollowsItsTable := by
  intro i s t r hexec hresponse
  rcases exec_cases hexec with ⟨e, he, rfl⟩ | ⟨-, v, rfl⟩
  · obtain rfl := Option.some.inj hresponse
    exact (if_neg he).symm
  · obtain rfl := Option.some.inj hresponse
    rw [if_pos rfl]
    cases i <;> rfl

/-! ## The initial condition (10_state.md R23, R26) -/

theorem State.initial_of_eq {s : State} (hprev : s.prev = initMetrics Config.params)
    (hcurr : s.curr = Vector.ofFn fun _ => 0) (hhist : s.hist = []) : s.Initial := by
  refine ⟨?_, fun k h1 hk => ?_, fun k hk => ?_, fun p => ?_⟩
  · rw [hprev, metricAt_initMetrics (by decide), if_pos rfl]
  · rw [hprev, metricAt_initMetrics hk, if_neg (by omega)]
  · rw [hcurr, metricAt_ofFn, dif_pos hk]
  · rw [State.readHist, hhist, Mem.lookup_nil, Option.getD_none]

theorem State.initial_resetDecoder (s : State) : s.resetDecoder.Initial := State.initial_of_eq rfl rfl rfl

theorem State.initial_hardReset (s : State) : s.hardReset.Initial := State.initial_of_eq rfl rfl rfl

/-- The first reset is like every later one (R40, 70_reset_and_hazards.md R260). -/
theorem State.initial_reset : State.reset.Initial :=
  State.initial_of_eq (congrArg State.prev (State.hardReset_eq_reset State.reset)).symm
    (congrArg State.curr (State.hardReset_eq_reset State.reset)).symm rfl

/-- Settles O10: the metrics and history are the initial condition's, everything else is what the definition says. -/
theorem resetStateIsAsTheTableSays : Obligations.ResetStateIsAsTheTableSays :=
  ⟨State.initial_reset, rfl, fun _ => ⟨rfl, rfl, rfl⟩, rfl, rfl, rfl⟩

/-! ## The invariant -/

/-- The invariant says nothing of the response. -/
theorem inv_reply {s : State} (h : s.Inv) (v : BitVec 32) : (s.reply v).Inv :=
  ⟨h.hist_wf, h.ibuf_wf, h.pbuf_wf, h.obuf_wf, h.obuf_whole, h.reset_initial⟩

theorem inv_reject {s : State} (h : s.Inv) (e : ErrCode) : (s.reject e).Inv :=
  ⟨h.hist_wf, h.ibuf_wf, h.pbuf_wf, h.obuf_wf, h.obuf_whole, h.reset_initial⟩

/-- The invariant says nothing of the host's later actions. -/
theorem inv_withHost {s : State} (h : s.Inv) (rest : List HostAction) : State.Inv { s with host := rest } :=
  ⟨h.hist_wf, h.ibuf_wf, h.pbuf_wf, h.obuf_wf, h.obuf_whole, h.reset_initial⟩

theorem inv_resetDecoder {s : State} (h : s.Inv) : s.resetDecoder.Inv :=
  ⟨Mem.wf_nil _, h.ibuf_wf, h.pbuf_wf, h.obuf_wf, h.obuf_whole, fun _ => s.initial_resetDecoder⟩

/-- Hardware reset establishes the invariant from any state. -/
theorem inv_hardReset (s : State) : s.hardReset.Inv :=
  ⟨Mem.wf_nil _, Mem.wf_nil _, Mem.wf_nil _, Mem.wf_nil _, .inl rfl, fun _ => s.initial_hardReset⟩

theorem inv_writeIbuf {s : State} (h : s.Inv) {n : Nat} (hn : n < Config.params.ibufDepth) (v : SoftBit) :
    (s.writeIbuf n v).Inv :=
  ⟨h.hist_wf, Mem.wf_write h.ibuf_wf v hn, h.pbuf_wf, h.obuf_wf, h.obuf_whole, h.reset_initial⟩

theorem inv_writePbuf {s : State} (h : s.Inv) {n : Nat} (hn : n < Config.params.pbufDepth) (b : BitVec 1) :
    (s.writePbuf n b).Inv :=
  ⟨h.hist_wf, h.ibuf_wf, Mem.wf_write h.pbuf_wf b hn, h.obuf_wf, h.obuf_whole, h.reset_initial⟩

/-- A step leaves PHASE ACCUM, so only the history's form is at stake. -/
theorem inv_trellisStep {s : State} (h : s.Inv) {n : Nat} (hn : n < Config.params.histLen) (s0 s1 : SoftBit) :
    (trellisStep n s0 s1 s).Inv where
  hist_wf := wf_hist_trellisStep h.hist_wf hn
  ibuf_wf := by rw [trellisStep_ibuf]; exact h.ibuf_wf
  pbuf_wf := by rw [trellisStep_pbuf]; exact h.pbuf_wf
  obuf_wf := by rw [trellisStep_obuf]; exact h.obuf_wf
  obuf_whole := by rw [trellisStep_obuf]; exact h.obuf_whole
  reset_initial := by simp

/-- The steps of a decode, at positions inside HIST, keep the invariant. -/
theorem inv_runSteps {s : State} (h : s.Inv) (e : Nat → SoftBit) {n : Nat} (hn : n ≤ Config.params.histLen) :
    (runSteps e n s).Inv := by
  induction n with
  | zero => exact h
  | succ n ih => exact inv_trellisStep (ih (by omega)) hn _ _

/-- A chainback writes the whole of OBUF and leaves PHASE CHAINED (42_viterbi_decoder.md R160). -/
theorem inv_chainback {s : State} (h : s.Inv) {n x : Nat} (hx : x ≤ Config.params.histLen) (hn : n ≤ x + 4) :
    (chainback n x s).Inv :=
  ⟨h.hist_wf, h.ibuf_wf, h.pbuf_wf, wf_chainback hx hn, .inr fun _ hk => written_chainback n x s hk, by simp⟩

theorem inv_decodePairs {s : State} (h : s.Inv) (e : Nat → SoftBit) {n : Nat} (hn : n ≤ Config.params.histLen) :
    (decodePairs e n s).Inv :=
  inv_chainback (inv_runSteps (inv_resetDecoder h) e hn) hn (Nat.le_add_right n 4)

/-- Half of an accepted length is a number of steps that HIST holds (00_scope.md R7: MAX_LEN = 2 · HIST_LEN). -/
theorem half_le_histLen {cfg : Params} {len : Nat} (h : len ≤ cfg.maxLen) : len / 2 ≤ cfg.histLen :=
  Nat.div_le_of_le_mul h

/-- Every accepted command keeps the invariant: its checks bound the indices it writes at. -/
theorem inv_commandEffect {s : State} (h : s.Inv) {i : Instr} (hc : commandCheck i s = none) :
    (commandEffect i s).Inv := by
  cases i with
  | rst => exact inv_resetDecoder h
  | step n s0 s1 =>
    obtain ⟨hn, -⟩ := checkStep_eq_none.mp hc
    exact inv_trellisStep h hn s0 s1
  | chb n x =>
    obtain ⟨-, hx, hn⟩ := checkChb_eq_none.mp hc
    exact inv_chainback h hx hn
  | dec len =>
    obtain ⟨hlen, -⟩ := checkDec_eq_none.mp hc
    exact inv_decodePairs h _ (half_le_histLen hlen)
  | decp inLen pLen =>
    obtain ⟨-, u, hu, -⟩ := checkDecp_eq_none.mp hc
    rw [commandEffect, hu]
    exact inv_decodePairs h _ (half_le_histLen (expandedLength_le hu))
  | ldi n v => exact inv_writeIbuf h (checkIndex_eq_none.mp hc) v
  | ldp n b => exact inv_writePbuf h (checkIndex_eq_none.mp hc) b
  | slc | rdt | rdo | rdm | rdh | rds => exact h

theorem inv_exec {s t : State} (h : s.Inv) {i : Instr} (hexec : exec i s = .next t) : t.Inv := by
  rcases exec_cases hexec with ⟨e, -, rfl⟩ | ⟨hc, v, rfl⟩
  · exact inv_reject h e
  · exact inv_reply (inv_commandEffect h hc) v

/-- Settles O13: an idle step changes nothing, a reset establishes the invariant, and a rejection and every command
keep it. -/
theorem stepKeepsInvariant : Obligations.StepKeepsInvariant := by
  intro s t h hstep
  rcases step_cases hstep with ⟨-, rfl⟩ | ⟨-, rest, -, rfl⟩ | ⟨-, rest, -, -, -, rfl⟩ | ⟨-, rest, i, -, -, hexec⟩
  · exact h
  · exact inv_hardReset _
  · exact inv_reject (inv_withHost h rest) .illegal
  · exact inv_exec (inv_withHost h rest) hexec

end Sys2Proof.Machine
end

section
/-! PROOF that a decode is a function of its input elements alone (10_state.md R39): the run of steps, the walk and the
adapter's expansion each read only what R39 names. -/

namespace Sys2Proof.Machine

variable {cfg : Params}

/-! ## The run of steps and the chainback read the trellis state and the soft bits only -/

/-- What a run leaves of the metrics and the history depends on those two and on the soft bits only. -/
theorem runSteps_trellis_congr {e : Nat → SoftBit} {s s' : State cfg} (hprev : s'.prev = s.prev)
    (hhist : s'.hist = s.hist) (n : Nat) :
    (runSteps e n s').prev = (runSteps e n s).prev ∧ (runSteps e n s').hist = (runSteps e n s).hist := by
  induction n with
  | zero => exact ⟨hprev, hhist⟩
  | succ n ih =>
    obtain ⟨ihprev, ihhist⟩ := ih
    simp only [runSteps_succ, trellisStep_prev, trellisStep_hist, ihprev, ihhist, and_self]

theorem chainback_obuf_congr {s s' : State cfg} (hhist : s'.hist = s.hist) (n x : Nat) :
    (chainback n x s').obuf = (chainback n x s).obuf := by
  rw [chainback_obuf, chainback_obuf, State.readHist_congr hhist]

/-- Two states have the same decode results: metrics, history and output buffer. -/
def SameDecode (s t : State cfg) : Prop := t.prev = s.prev ∧ t.hist = s.hist ∧ t.obuf = s.obuf

/-- A decode starts from its own reset, so the state before it does not matter (R39). -/
theorem sameDecode_decodePairs {e e' : Nat → SoftBit} {n : Nat} (h : ∀ k, k < 2 * n → e' k = e k) (s s' : State cfg) :
    SameDecode (decodePairs e n s) (decodePairs e' n s') := by
  obtain ⟨hprev, hhist⟩ := runSteps_trellis_congr (e := e) (s := s.resetDecoder) (s' := s'.resetDecoder) rfl rfl n
  rw [decodePairs_congr h]
  exact ⟨hprev, hhist, chainback_obuf_congr hhist n n⟩

/-- A written byte reads the same whatever the free values are. -/
theorem readObuf_eq_of_written {s t : State cfg} (h : t.obuf = s.obuf) {k : Nat} (hk : Mem.written s.obuf k = true) :
    t.readObuf k = s.readObuf k := by
  obtain ⟨v, hv⟩ := Option.isSome_iff_exists.mp hk
  simp only [State.readObuf, h, hv, Option.getD_some]

theorem written_decodePairs (e : Nat → SoftBit) (n : Nat) (s : State cfg) {k : Nat} (hk : k < cfg.obufBytes) :
    Mem.written (decodePairs e n s).obuf k = true := written_chainback n n _ hk

/-- A decode clears the history from its number of steps on (42_viterbi_decoder.md R170). -/
theorem readHist_decodePairs_of_ge (e : Nat → SoftBit) {n p : Nat} (s : State cfg) (h : n ≤ p) :
    (decodePairs e n s).readHist p = 0 := readHist_runSteps_of_ge e s.resetDecoder h

/-! ## The expansion reads PBUF below pLen and IBUF below inLen only (43_punctured_adapter.md R192, R193) -/

theorem expandedLengthFrom_congr {kept kept' : Nat → Bool} {pLen : Nat} (hk : ∀ p, p < pLen → kept' p = kept p)
    (inLen room i u : Nat) {p : Nat} (hp : p < pLen) :
    expandedLengthFrom kept' inLen pLen room i u p = expandedLengthFrom kept inLen pLen room i u p := by
  induction room generalizing i u p with
  | zero => rfl
  | succ room ih => simp only [expandedLengthFrom, hk p hp, ih _ _ (Nat.mod_lt _ (Nat.zero_lt_of_lt hp))]

/-- The expansion up to its own length consumes the first `inLen` soft bits at most. -/
theorem expandFrom_congr {kept kept' : Nat → Bool} {input input' : Nat → SoftBit} {inLen pLen : Nat}
    (hk : ∀ p, p < pLen → kept' p = kept p) (hi : ∀ k, k < inLen → input' k = input k) {room i u p v : Nat}
    (hp : p < pLen) (hv : expandedLengthFrom kept inLen pLen room i u p = some v) :
    expandFrom cfg kept' input' pLen (v - u) i p = expandFrom cfg kept input pLen (v - u) i p := by
  induction room generalizing i u p with
  | zero =>
    obtain ⟨-, hvu⟩ := expandedLengthFrom_le hv
    have hturns : v - u = 0 := Nat.sub_eq_zero_of_le hvu
    rw [hturns]
    rfl
  | succ room ih =>
    rw [expandedLengthFrom] at hv
    split at hv
    case isTrue hlt =>
      obtain ⟨huv, -⟩ := expandedLengthFrom_le hv
      have hturns : v - u = v - (u + 1) + 1 := by omega
      have hrest := ih (Nat.mod_lt _ (Nat.zero_lt_of_lt hp)) hv
      rw [hturns, expandFrom, expandFrom, hk p hp]
      split
      · next hkept => rw [if_pos hkept] at hrest; rw [hi i hlt, hrest]
      · next hkept => rw [if_neg hkept] at hrest; rw [hrest]
    case isFalse =>
      obtain rfl := Option.some.inj hv
      rw [Nat.sub_self]
      rfl

section
variable {s s' : State cfg} {inLen pLen : Nat} (hp : pLen ≠ 0) (hpbuf : ∀ k, k < pLen → s'.readPbuf k = s.readPbuf k)

include hpbuf in
theorem kept_congr {p : Nat} (h : p < pLen) : s'.kept p = s.kept p := by
  rw [State.kept, State.kept, hpbuf p h]

include hp hpbuf

theorem expandedLength_congr : expandedLength s' inLen pLen = expandedLength s inLen pLen :=
  expandedLengthFrom_congr (fun _ => kept_congr hpbuf) inLen _ 0 0 (Nat.pos_of_ne_zero hp)

theorem expandedBit_congr (hibuf : ∀ k, k < inLen → s'.readIbuf k = s.readIbuf k) {u : Nat}
    (hu : expandedLength s inLen pLen = some u) : expandedBit s' pLen u = expandedBit s pLen u := by
  have hexpansion : expansion s' pLen u = expansion s pLen u :=
    expandFrom_congr (fun _ => kept_congr hpbuf) hibuf (Nat.pos_of_ne_zero hp) hu
  funext k
  rw [expandedBit, expandedBit, hexpansion]

end

/-! ## The two commands, accepted -/

theorem exec_dec_of_accepted {len : Nat} (hlen : len ≤ Config.params.maxLen) (heven : len % 2 = 0) (s : State) :
    exec (.dec len) s = .next ((decodePairs s.readIbuf (len / 2) s).reply
      (metricVal (minMetric (decodePairs s.readIbuf (len / 2) s).prev))) := by
  rw [exec, execDec, checkDec_eq_none.mpr ⟨hlen, heven⟩, guarded_none, accept_eq]

theorem exec_decp_of_accepted {s : State} {inLen pLen u : Nat} (hp : pLen ≠ 0)
    (hu : expandedLength s inLen pLen = some u) (heven : u % 2 = 0) :
    exec (.decp inLen pLen) s = .next ((decodePairs (expandedBit s pLen u) (u / 2) s).reply
      (metricVal (subMetric (minMetric (decodePairs (expandedBit s pLen u) (u / 2) s).prev)
        (erasureBias Config.params u inLen)))) := by
  rw [exec, execDecp, checkDecp_eq_none.mpr ⟨hp, u, hu, heven⟩, guarded_none, hu, Option.getD_some, decodePunctured,
    accept_eq]

/-- DEC, the first half of R39. -/
theorem dec_depends_on_input_alone {s s' : State} {len : Nat} (hlen : len ≤ Config.params.maxLen)
    (heven : len % 2 = 0) (hibuf : ∀ k, k < len → s'.readIbuf k = s.readIbuf k) :
    ∃ t t', exec (.dec len) s = .next t ∧ exec (.dec len) s' = .next t' ∧
      t'.response = t.response ∧ (∀ k, k < Config.params.obufBytes → t'.readObuf k = t.readObuf k) ∧
      t'.prev = t.prev ∧ t'.hist = t.hist ∧ ∀ p, len / 2 ≤ p → t.readHist p = 0 := by
  obtain ⟨hprev, hhist, hobuf⟩ :=
    sameDecode_decodePairs (n := len / 2) (fun k hk => hibuf k (by omega)) s s'
  refine ⟨_, _, exec_dec_of_accepted hlen heven s, exec_dec_of_accepted hlen heven s', ?_, fun k hk => ?_, hprev, hhist,
    fun p => readHist_decodePairs_of_ge _ s⟩
  · rw [State.reply_response, State.reply_response, hprev, decodePairs_phase, decodePairs_phase]
  · exact readObuf_eq_of_written hobuf (written_decodePairs _ _ s hk)

/-- DECP, the second half of R39. -/
theorem decp_depends_on_input_alone {s s' t : State} {inLen pLen : Nat} {v : BitVec 32} (hp : pLen ≠ 0)
    (hibuf : ∀ k, k < inLen → s'.readIbuf k = s.readIbuf k) (hpbuf : ∀ k, k < pLen → s'.readPbuf k = s.readPbuf k)
    (hexec : exec (.decp inLen pLen) s = .next t) (hresponse : t.response = some ⟨.ok, .chained, v⟩) :
    ∃ t', exec (.decp inLen pLen) s' = .next t' ∧ t'.response = t.response ∧
      (∀ k, k < Config.params.obufBytes → t'.readObuf k = t.readObuf k) ∧ t'.prev = t.prev ∧ t'.hist = t.hist := by
  rcases exec_decp_cases hexec with ⟨e, hc, rfl⟩ | ⟨u, -, hu, heven, rfl⟩
  · have herr : e = .ok := congrArg Response.err (Option.some.inj hresponse)
    exact absurd herr (checkDecp_ne_ok hc)
  · have hbits := expandedBit_congr hp hpbuf hibuf hu
    obtain ⟨hprev, hhist, hobuf⟩ :=
      sameDecode_decodePairs (n := u / 2) (fun k _ => congrFun hbits k) s s'
    refine ⟨_, exec_decp_of_accepted hp ((expandedLength_congr hp hpbuf).trans hu) heven, ?_, fun k hk => ?_, hprev,
      hhist⟩
    · rw [State.reply_response, State.reply_response, hprev, decodePairs_phase, decodePairs_phase]
    · exact readObuf_eq_of_written hobuf (written_decodePairs _ _ s hk)

/-- Settles O33: DEC reads the first len soft bits, DECP an expansion made of the first inLen soft bits and the first
pLen pattern bits. -/
theorem decodeDependsOnItsInputAlone : Obligations.DecodeDependsOnItsInputAlone :=
  ⟨fun _ _ _ => dec_depends_on_input_alone, fun _ _ _ _ _ _ => decp_depends_on_input_alone⟩

end Sys2Proof.Machine
end

section
/-! PROOF that DEC returns the least distance over all input sequences (10_state.md R20, 42_viterbi_decoder.md R158, R163):
after n steps from reset the metric of a state is the least distance of the paths that end there, and a state that no
path of n steps reaches still has a metric at or above the sentinel. -/

namespace Sys2Proof.Machine

/-! ## Paths through the trellis (41_trellis_rom.md R122, 42_viterbi_decoder.md R142) -/

/-- The successor of encoder state `p` under input bit `b` (R142). -/
def successor (p : Nat) (b : Bool) : Nat := (2 * p + b.toNat) % 16

theorem successor_lt (p : Nat) (b : Bool) : successor p b < 16 := Nat.mod_lt _ (by decide)

theorem encoderState_concat (st : Nat) (bits : List Bool) (b : Bool) :
    encoderState st (bits ++ [b]) = successor (encoderState st bits) b := by
  rw [encoderState, encoderState, List.foldl_concat, successor]

theorem encoderState_lt {st : Nat} (hst : st < 16) (bits : List Bool) : encoderState st bits < 16 := by
  induction bits using List.reverseRecOn with
  | nil => exact hst
  | append_singleton bits b _ => rw [encoderState_concat]; exact successor_lt _ b

@[simp] theorem length_referenceEncode (st : Nat) (bits : List Bool) :
    (referenceEncode st bits).length = 2 * bits.length := by
  induction bits generalizing st with
  | nil => rfl
  | cons b bits ih => rw [referenceEncode, List.length_cons, List.length_cons, ih, List.length_cons]; omega

/-- A further input bit adds the ideal pair of its transition. -/
theorem referenceEncode_concat (st : Nat) (bits : List Bool) (b : Bool) :
    referenceEncode st (bits ++ [b]) =
      referenceEncode st bits ++ [(idealPair (encoderState st bits) b).1, (idealPair (encoderState st bits) b).2] := by
  induction bits generalizing st with
  | nil => rfl
  | cons c bits ih => simp only [List.cons_append, referenceEncode, ih]; rfl

@[simp] theorem pathDistance_nil (e : Nat → SoftBit) (st : Nat) : pathDistance e st [] = 0 := rfl

/-- The distance of a path accumulates over its transitions (10_state.md R20). -/
theorem pathDistance_concat (e : Nat → SoftBit) (st : Nat) (bits : List Bool) (b : Bool) :
    pathDistance e st (bits ++ [b]) = pathDistance e st bits +
      transitionDistance (encoderState st bits) b (e (2 * bits.length)) (e (2 * bits.length + 1)) := by
  have hlen := length_referenceEncode st bits
  have hrange : List.range (2 * (bits ++ [b]).length) =
      List.range (2 * bits.length) ++ [2 * bits.length, 2 * bits.length + 1] := by
    rw [List.length_append, List.length_singleton, Nat.mul_succ, List.range_succ, List.range_succ, List.append_assoc,
      List.singleton_append]
  have hold : ∀ k ∈ List.range (2 * bits.length),
      softDistance ((referenceEncode st (bits ++ [b])).getD k 0) (e k) =
        softDistance ((referenceEncode st bits).getD k 0) (e k) := by
    intro k hk
    rw [referenceEncode_concat, List.getD_append _ _ _ _ (by rw [hlen]; exact List.mem_range.mp hk)]
  rw [pathDistance, hrange, List.map_append, List.sum_append, List.map_congr_left hold, pathDistance]
  simp [referenceEncode_concat, hlen, transitionDistance]

/-! ## A branch metric is the distance of a transition (42_viterbi_decoder.md R150, R151) -/

theorem branchMetric0_eq_softDistance (cfg : Params) (s0 s1 : SoftBit) (i : Nat) :
    branchMetric0 cfg s0 s1 i =
      softDistance (romEntry cfg i).ideal0 s0 + softDistance (romEntry cfg i).ideal1 s1 := by
  rw [branchMetric0, absdiff_eq_softDistance, absdiff_eq_softDistance]

/-- The distances to an ideal value and to its complement add up to SOFT_MAX. -/
theorem softDistance_complement {a : SoftBit} (ha : a = 0 ∨ a = 65535) (s : SoftBit) :
    softDistance (65535 - a) s + softDistance a s = 65535 := by
  have := s.isLt
  rcases ha with rfl | rfl <;> simp [softDistance] <;> omega

theorem branchMetric1_eq_softDistance (s0 s1 : SoftBit) (i : Nat) :
    branchMetric1 Config.params s0 s1 i =
      softDistance (65535 - (romEntry Config.params i).ideal0) s0 +
        softDistance (65535 - (romEntry Config.params i).ideal1) s1 := by
  obtain ⟨h0, h1⟩ := romEntry_ideal i
  have hc0 := softDistance_complement h0 s0
  have hc1 := softDistance_complement h1 s1
  rw [branchMetric1, branchMetric0_eq_softDistance, params_maxDist]
  omega

/-- Which of its half-state's two branch metrics a transition has (R122, R152). -/
theorem transitionDistance_eq_branchMetric (p : Nat) (b : Bool) (s0 s1 : SoftBit) :
    transitionDistance p b s0 s1 =
      if xor (p / 8 == 1) b then branchMetric1 Config.params s0 s1 (p % 8)
      else branchMetric0 Config.params s0 s1 (p % 8) := by
  rw [branchMetric0_eq_softDistance, branchMetric1_eq_softDistance, transitionDistance, idealPair]
  split <;> rfl

theorem transitionDistance_le (p : Nat) (b : Bool) (s0 s1 : SoftBit) :
    transitionDistance p b s0 s1 ≤ Config.params.maxDist := by
  rw [transitionDistance_eq_branchMetric]
  split
  · exact branchMetric1_le _ _ _ _
  · exact branchMetric0_le _ _ _ _

/-! ## One step: the new metric of a state is the least over its two predecessors (R122, R152, R153) -/

/-- The candidate metric that predecessor `p` offers under input bit `b`. -/
def candidate (prev : Vector Config.params.Metric 16) (p : Nat) (b : Bool) (s0 s1 : SoftBit) : Nat :=
  (metricAt prev p).toNat + transitionDistance p b s0 s1

/-- No addition of a branch metric to one of these metrics wraps (R175). -/
def NoWrap (prev : Vector Config.params.Metric 16) : Prop :=
  ∀ p, p < 16 → (metricAt prev p).toNat + Config.params.maxDist < 2 ^ Config.params.metricW

theorem toNat_addMetric_of_noWrap {prev : Vector Config.params.Metric 16} (h : NoWrap prev) {p d : Nat} (hp : p < 16)
    (hd : d ≤ Config.params.maxDist) :
    (addMetric (metricAt prev p) (BitVec.ofNat Config.params.metricW d)).toNat = (metricAt prev p).toNat + d := by
  have hroom := h p hp
  rw [toNat_addMetric, BitVec.toNat_ofNat, Nat.add_mod_mod, Nat.mod_eq_of_lt (by omega)]

/-- Without a wrap the winner of successor `t` is the lesser of its two candidates, whose input bit is the parity of
`t`. -/
theorem toNat_survivor_eq_min {prev : Vector Config.params.Metric 16} (h : NoWrap prev) {t : Nat} (ht : t < 16)
    (s0 s1 : SoftBit) :
    (survivor Config.params prev s0 s1 t).2.toNat =
      min (candidate prev (t / 2) (t % 2 == 1) s0 s1) (candidate prev (t / 2 + 8) (t % 2 == 1) s0 s1) := by
  have hbm0 := branchMetric0_le Config.params s0 s1 (t / 2)
  have hbm1 := branchMetric1_le Config.params s0 s1 (t / 2)
  have hdiv : (t / 2) / 8 = 0 := by omega
  have hmod : (t / 2) % 8 = t / 2 := by omega
  have hdiv' : (t / 2 + 8) / 8 = 1 := by omega
  have hmod' : (t / 2 + 8) % 8 = t / 2 := by omega
  rw [toNat_survivor, candidate, candidate, transitionDistance_eq_branchMetric, transitionDistance_eq_branchMetric,
    hdiv, hmod, hdiv', hmod']
  rcases Nat.mod_two_eq_zero_or_one t with heven | hodd
  · rw [if_pos heven, if_pos heven, toNat_addMetric_of_noWrap h (by omega) hbm0,
      toNat_addMetric_of_noWrap h (by omega) hbm1, heven]
    rfl
  · have hne : ¬ t % 2 = 0 := by omega
    rw [if_neg hne, if_neg hne, toNat_addMetric_of_noWrap h (by omega) hbm1,
      toNat_addMetric_of_noWrap h (by omega) hbm0, hodd]
    rfl

/-- Every predecessor's candidate bounds the new metric of its successor. -/
theorem toNat_survivor_successor_le {prev : Vector Config.params.Metric 16} (h : NoWrap prev) {p : Nat} (hp : p < 16)
    (b : Bool) (s0 s1 : SoftBit) :
    (survivor Config.params prev s0 s1 (successor p b)).2.toNat ≤ candidate prev p b s0 s1 := by
  have hb : (successor p b % 2 == 1) = b := by cases b <;> simp [successor]
  have hpred : successor p b / 2 = p ∨ successor p b / 2 + 8 = p := by cases b <;> simp [successor] <;> omega
  rw [toNat_survivor_eq_min h (successor_lt p b), hb]
  rcases hpred with hfirst | hsecond
  · rw [hfirst]; exact Nat.min_le_left _ _
  · rw [hsecond]; exact Nat.min_le_right _ _

/-- The new metric of a state is the candidate of one of its predecessors. -/
theorem exists_predecessor_toNat_survivor {prev : Vector Config.params.Metric 16} (h : NoWrap prev) {t : Nat}
    (ht : t < 16) (s0 s1 : SoftBit) :
    ∃ p b, p < 16 ∧ successor p b = t ∧
      (survivor Config.params prev s0 s1 t).2.toNat = candidate prev p b s0 s1 := by
  have hb : (t % 2 == 1).toNat = t % 2 := by rcases Nat.mod_two_eq_zero_or_one t with h | h <;> simp [h]
  rw [toNat_survivor_eq_min h ht]
  rcases Nat.le_total (candidate prev (t / 2) (t % 2 == 1) s0 s1) (candidate prev (t / 2 + 8) (t % 2 == 1) s0 s1)
    with hle | hle
  · exact ⟨t / 2, t % 2 == 1, by omega, by rw [successor, hb]; omega, Nat.min_eq_left hle⟩
  · exact ⟨t / 2 + 8, t % 2 == 1, by omega, by rw [successor, hb]; omega, Nat.min_eq_right hle⟩

/-! ## n steps: metrics are least path distances -/

theorem params_two_softMax_le_maxDist : 2 * Config.softMax ≤ Config.params.maxDist := by decide

/-- Within the bounds of fewer than HIST_LEN steps the next step cannot wrap (R8 (b)). -/
theorem State.MetricBounds.noWrap {s : State} {n : Nat} (h : s.MetricBounds n) (hn : n < Config.params.histLen) :
    NoWrap s.prev := by
  intro p hp
  rw [params_histLen] at hn
  rw [params_maxDist, two_pow_metricW]
  rcases Nat.lt_or_ge p (2 ^ n) with hreach | hunreach
  · have := h.reached p hp hreach
    rw [params_maxDist] at this
    omega
  · have := (h.unreached p hp hunreach).2
    rw [params_maxDist, params_initSentinel] at this
    omega

/-- What n steps over the soft bits `e` leave of the metrics: the bounds, and for each state the least distance of the
paths of n bits that end there (10_state.md R20). -/
structure State.LeastDistances (s : State) (e : Nat → SoftBit) (n : Nat) : Prop where
  bounds : s.MetricBounds n
  le : ∀ bits : List Bool, bits.length = n → (metricAt s.prev (encoderState 0 bits)).toNat ≤ pathDistance e 0 bits
  attained : ∀ k, k < 16 → k < 2 ^ n →
    ∃ bits : List Bool, bits.length = n ∧ encoderState 0 bits = k ∧ (metricAt s.prev k).toNat = pathDistance e 0 bits

/-- After reset the empty path ends in state 0 at distance 0. -/
theorem leastDistances_resetDecoder (s : State) (e : Nat → SoftBit) : s.resetDecoder.LeastDistances e 0 where
  bounds := metricBounds_resetDecoder params_valid.1 s
  le bits hbits := by
    obtain rfl := List.eq_nil_of_length_eq_zero hbits
    rfl
  attained k _ hreach := by
    obtain rfl : k = 0 := by omega
    exact ⟨[], rfl, rfl, rfl⟩

/-- A state with a metric below the sentinel is reached (R158). -/
theorem State.MetricBounds.lt_two_pow {s : State} {n p : Nat} (h : s.MetricBounds n) (hp : p < 16)
    (hlt : (metricAt s.prev p).toNat < Config.params.initSentinel) : p < 2 ^ n :=
  Nat.lt_of_not_le fun hunreach => Nat.not_lt.mpr (h.unreached p hp hunreach).1 hlt

/-- A reached metric is below the sentinel (R8 (a)). -/
theorem State.MetricBounds.toNat_lt_sentinel {s : State} {n k : Nat} (h : s.MetricBounds n)
    (hn : n ≤ Config.params.histLen) (hk : k < 16) (hreach : k < 2 ^ n) :
    (metricAt s.prev k).toNat < Config.params.initSentinel :=
  (h.reached k hk hreach).trans_lt
    ((Nat.mul_le_mul_right Config.params.maxDist hn).trans_lt params_valid.1.1)

/-- One step extends every path by one bit and keeps the least (R152, R153). -/
theorem leastDistances_trellisStep {s : State} {e : Nat → SoftBit} {n : Nat} (h : s.LeastDistances e n)
    (hn : n < Config.params.histLen) :
    (trellisStep n (e (2 * n)) (e (2 * n + 1)) s).LeastDistances e (n + 1) := by
  have hwrap := h.bounds.noWrap hn
  have hbounds := metricBounds_trellisStep h.bounds params_valid.1 params_two_softMax_le_maxDist hn n (e (2 * n))
    (e (2 * n + 1))
  refine ⟨hbounds, fun bits hbits => ?_, fun k hk hreach => ?_⟩
  · obtain rfl | ⟨init, b, rfl⟩ := bits.eq_nil_or_concat'
    · cases hbits
    obtain rfl : init.length = n := by simpa using hbits
    have hstate := encoderState_lt (st := 0) (by decide) init
    rw [encoderState_concat, metricAt_trellisStep_prev _ _ _ _ (successor_lt _ b), pathDistance_concat]
    exact (toNat_survivor_successor_le hwrap hstate b _ _).trans (Nat.add_le_add_right (h.le init rfl) _)
  · obtain ⟨p, b, hp, rfl, hmetric⟩ := exists_predecessor_toNat_survivor hwrap hk (e (2 * n)) (e (2 * n + 1))
    rw [← metricAt_trellisStep_prev n _ _ _ hk] at hmetric
    have hlt : candidate s.prev p b (e (2 * n)) (e (2 * n + 1)) < Config.params.initSentinel :=
      hmetric ▸ hbounds.toNat_lt_sentinel hn hk hreach
    have hp' := h.bounds.lt_two_pow hp ((Nat.le_add_right _ _).trans_lt hlt)
    obtain ⟨bits, rfl, rfl, hdistance⟩ := h.attained p hp hp'
    exact ⟨bits ++ [b], by simp, encoderState_concat 0 bits b, by
      rw [hmetric, candidate, hdistance, pathDistance_concat]⟩

theorem leastDistances_runSteps (s : State) (e : Nat → SoftBit) {n : Nat} (hn : n ≤ Config.params.histLen) :
    (runSteps e n s.resetDecoder).LeastDistances e n := by
  induction n with
  | zero => exact leastDistances_resetDecoder s e
  | succ n ih => exact leastDistances_trellisStep (ih (Nat.le_of_succ_le hn)) hn

/-! ## The cost -/

theorem toNat_minMetric_le {w : Nat} (v : Vector (BitVec w) 16) {k : Nat} (hk : k < 16) :
    (minMetric v).toNat ≤ (metricAt v k).toNat := BitVec.le_def.mp (minMetric_le v hk)

/-- The least metric is the least distance of all paths (42_viterbi_decoder.md R163). -/
theorem State.LeastDistances.minMetric_le {s : State} {e : Nat → SoftBit} {n : Nat} (h : s.LeastDistances e n)
    {bits : List Bool} (hbits : bits.length = n) : (minMetric s.prev).toNat ≤ pathDistance e 0 bits :=
  (toNat_minMetric_le _ (encoderState_lt (by decide) bits)).trans (h.le bits hbits)

/-- The state with the least metric is a reached one, because state 0 is reached and all unreached ones are above it. -/
theorem State.LeastDistances.minMetric_attained {s : State} {e : Nat → SoftBit} {n : Nat} (h : s.LeastDistances e n)
    (hn : n ≤ Config.params.histLen) :
    ∃ bits : List Bool, bits.length = n ∧ (minMetric s.prev).toNat = pathDistance e 0 bits := by
  obtain ⟨k, hk, hmin⟩ := Machine.minMetric_attained s.prev
  have hzero := h.bounds.toNat_lt_sentinel hn (k := 0) (by decide) (Nat.two_pow_pos n)
  have hlt := (toNat_minMetric_le s.prev (k := 0) (by decide)).trans_lt hzero
  rw [hmin] at hlt ⊢
  obtain ⟨bits, hbits, -, hdistance⟩ := h.attained k hk (h.bounds.lt_two_pow hk hlt)
  exact ⟨bits, hbits, hdistance⟩

/-- Settles O35: DEC's VAL is the least metric after its n steps, and those metrics are least path distances. -/
theorem decodeCostIsLeastPathDistance : Obligations.DecodeCostIsLeastPathDistance := by
  intro s n hn
  have hlen : 2 * n ≤ Config.params.maxLen := Nat.mul_le_mul_left 2 hn
  have hexec := exec_dec_of_accepted hlen (Nat.mul_mod_right 2 n) s
  rw [Nat.mul_div_cancel_left n (by decide)] at hexec
  have hleast := leastDistances_runSteps s s.readIbuf hn
  refine ⟨_, _, hexec, rfl, fun bits hbits => ?_, ?_⟩
  · rw [toNat_metricVal _ params_metricW.le]
    exact hleast.minMetric_le hbits
  · rw [toNat_metricVal _ params_metricW.le]
    exact hleast.minMetric_attained hn

end Sys2Proof.Machine
end


section
/-! PROOFS of the memory statements (20_memory.md R55, R63, R64): an index outside its space, reads that change nothing,
and commands on which the unspecified contents have no effect. -/

namespace Sys2Proof.Machine

variable {cfg : Params}

/-! ## The value an accepted command returns -/

/-- The VAL of an accepted command (00_scope.md R14). -/
def commandValue (i : Instr) (s : State) : BitVec 32 :=
  match i with
  | .chb _ _ => metricVal (minMetric s.prev)
  | .dec len => metricVal (minMetric (commandEffect (.dec len) s).prev)
  | .decp inLen pLen =>
    let u := (expandedLength s inLen pLen).getD 0
    metricVal (subMetric (minMetric (commandEffect (.decp inLen pLen) s).prev) (erasureBias Config.params u inLen))
  | .slc sample => BitVec.ofInt 16 (sliceB1 Config.params sample) ++ BitVec.ofInt 16 (sliceB0 Config.params sample)
  | .rdt halfState => (romEntry Config.params halfState).ideal0 ++ (romEntry Config.params halfState).ideal1
  | .rdo index => (s.readObuf index).setWidth 32
  | .rdm state => metricVal (metricAt s.prev state)
  | .rdh position => (s.readHist position).setWidth 32
  | .rds => statusValue Config.params s.phase
  | .rst | .step _ _ _ | .ldi _ _ | .ldp _ _ => 0

/-- Every command is its checks, then its effect and its value: all that `exec` does. -/
theorem exec_eq_guarded_commandValue (i : Instr) (s : State) :
    exec i s = guarded (commandCheck i s) s (accept (commandValue i s) (commandEffect i s)) := by
  cases i <;> rfl

theorem exec_of_check_failed {i : Instr} {s : State} {e : ErrCode} (h : commandCheck i s = some e) :
    exec i s = .next (s.reject e) := by
  rw [exec_eq_guarded_commandValue, h, guarded_some]

theorem exec_of_check_passed {i : Instr} {s : State} (h : commandCheck i s = none) :
    exec i s = .next ((commandEffect i s).reply (commandValue i s)) := by
  rw [exec_eq_guarded_commandValue, h, guarded_none, accept_eq]

/-! ## An index outside its space (R63) -/

theorem checkIndex_of_le {index depth : Nat} (h : depth ≤ index) : checkIndex index depth = some .operand := if_pos h

/-- Settles O21: each of the six commands has the check of R63, and it is the only one it has. -/
theorem indexOutsideSpaceIsRejected : Obligations.IndexOutsideSpaceIsRejected := by
  intro s n v b
  refine ⟨?_, ?_, ?_, ?_, ?_, ?_⟩ <;> exact fun hindex => exec_of_check_failed (checkIndex_of_le hindex)

/-! ## Reads (R55, 40_soft_bit_slicer.md R109) -/

/-- The commands of R55. -/
def IsRead : Instr → Prop
  | .slc _ | .rdt _ | .rdo _ | .rdm _ | .rdh _ | .rds => True
  | .rst | .step _ _ _ | .chb _ _ | .dec _ | .decp _ _ | .ldi _ _ | .ldp _ _ => False

theorem commandEffect_of_isRead {i : Instr} (h : IsRead i) (s : State) : commandEffect i s = s := by
  cases i with
  | slc | rdt | rdo | rdm | rdh | rds => rfl
  | rst | step | chb | dec | decp | ldi | ldp => exact h.elim

/-- A read answers from the state alone, whatever the response before it was. -/
theorem commandValue_withResponse {i : Instr} (h : IsRead i) (s : State) (r : Option Response) :
    commandValue i { s with response := r } = commandValue i s := by
  cases i with
  | slc | rdt | rdo | rdm | rdh | rds => rfl
  | rst | step | chb | dec | decp | ldi | ldp => exact h.elim

theorem commandCheck_withResponse (i : Instr) (s : State) (r : Option Response) :
    commandCheck i { s with response := r } = commandCheck i s := by
  cases i <;> rfl

theorem exec_read_onlyResponse {i : Instr} (hread : IsRead i) {s t : State} (hexec : exec i s = .next t) :
    OnlyResponse s t := by
  rcases exec_cases hexec with ⟨e, -, rfl⟩ | ⟨-, v, rfl⟩
  · rfl
  · rw [commandEffect_of_isRead hread]; rfl

/-- A read does the same whatever the response before it was, so doing it again changes nothing. -/
theorem exec_read_withResponse {i : Instr} (hread : IsRead i) (s : State) (r : Option Response) :
    exec i { s with response := r } = exec i s := by
  rw [exec_eq_guarded_commandValue, exec_eq_guarded_commandValue, commandCheck_withResponse,
    commandValue_withResponse hread, commandEffect_of_isRead hread, commandEffect_of_isRead hread]
  cases commandCheck i s <;> rfl

/-- Settles O49: a read changes the response only, and no read looks at the response. -/
theorem readsHaveNoSideEffect : Obligations.ReadsHaveNoSideEffect := by
  intro i s t hread hexec
  have honly : OnlyResponse s t := exec_read_onlyResponse hread hexec
  refine ⟨honly, ?_⟩
  rw [honly, exec_read_withResponse hread, hexec, ← honly]

/-! ## Other free values (R64, log 1) -/

/-- The same contents with other values in the elements that nothing has written. -/
def State.withEpoch (s : State cfg) (epoch : Nat) : State cfg := { s with epoch := epoch }

section
variable {w : Nat} {m : Mem w}

theorem Mem.getD_lookup_of_written {i : Nat} (h : Mem.written m i = true) (a b : BitVec w) :
    (Mem.lookup m i).getD a = (Mem.lookup m i).getD b := by
  obtain ⟨v, hv⟩ := Option.isSome_iff_exists.mp h
  rw [hv, Option.getD_some, Option.getD_some]

theorem Mem.written_of_all_range {n : Nat} (h : ((List.range n).all fun k => Mem.written m k) = true) :
    ∀ k, k < n → Mem.written m k = true :=
  fun k hk => List.all_eq_true.mp h k (List.mem_range.mpr hk)

end

theorem readIbuf_withEpoch {s : State cfg} {k : Nat} (h : Mem.written s.ibuf k = true) (epoch : Nat) :
    (s.withEpoch epoch).readIbuf k = s.readIbuf k := Mem.getD_lookup_of_written h _ _

theorem readPbuf_withEpoch {s : State cfg} {k : Nat} (h : Mem.written s.pbuf k = true) (epoch : Nat) :
    (s.withEpoch epoch).readPbuf k = s.readPbuf k := Mem.getD_lookup_of_written h _ _

theorem readObuf_withEpoch {s : State cfg} {k : Nat} (h : Mem.written s.obuf k = true) (epoch : Nat) :
    (s.withEpoch epoch).readObuf k = s.readObuf k := Mem.getD_lookup_of_written h _ _

theorem runSteps_withEpoch (e : Nat → SoftBit) (n : Nat) (s : State cfg) (epoch : Nat) :
    runSteps e n (s.withEpoch epoch) = (runSteps e n s).withEpoch epoch := by
  induction n with
  | zero => rfl
  | succ n ih => rw [runSteps_succ, ih, runSteps_succ]; rfl

/-- A decode of the same soft bits does not see the free values. -/
theorem decodePairs_withEpoch {e e' : Nat → SoftBit} {n : Nat} (h : ∀ k, k < 2 * n → e' k = e k) (s : State cfg)
    (epoch : Nat) : decodePairs e' n (s.withEpoch epoch) = (decodePairs e n s).withEpoch epoch := by
  have hrun : runSteps e n (s.withEpoch epoch).resetDecoder = (runSteps e n s.resetDecoder).withEpoch epoch :=
    runSteps_withEpoch e n s.resetDecoder epoch
  rw [decodePairs_congr h, decodePairs, hrun]
  rfl

/-! ## Commands that read written elements only (70_reset_and_hazards.md R262) -/

section
variable {s : State}

theorem readIbuf_withEpoch_of_dec {len : Nat} (h : readsWritten (.dec len) s = true) (epoch : Nat) :
    ∀ k, k < len → (s.withEpoch epoch).readIbuf k = s.readIbuf k :=
  fun k hk => readIbuf_withEpoch (Mem.written_of_all_range h k hk) epoch

/-- A DECP that keeps R262 reads the same inputs and the same pattern. -/
theorem reads_withEpoch_of_decp {inLen pLen : Nat} (h : readsWritten (.decp inLen pLen) s = true) (epoch : Nat) :
    (∀ k, k < inLen → (s.withEpoch epoch).readIbuf k = s.readIbuf k) ∧
      ∀ k, k < pLen → (s.withEpoch epoch).readPbuf k = s.readPbuf k := by
  obtain ⟨hibuf, hpbuf⟩ := Bool.and_eq_true_iff.mp h
  exact ⟨fun k hk => readIbuf_withEpoch (Mem.written_of_all_range hibuf k hk) epoch,
    fun k hk => readPbuf_withEpoch (Mem.written_of_all_range hpbuf k hk) epoch⟩

/-- DECP is the only command whose checks read a buffer, and for period 0 they do not. -/
theorem commandCheck_withEpoch {i : Instr} (h : readsWritten i s = true) (epoch : Nat) :
    commandCheck i (s.withEpoch epoch) = commandCheck i s := by
  cases i with
  | decp inLen pLen =>
    obtain ⟨-, hpbuf⟩ := reads_withEpoch_of_decp h epoch
    by_cases hp : pLen = 0
    · simp only [commandCheck, checkDecp, if_pos hp]
    · simp only [commandCheck, checkDecp, expandedLength_congr hp hpbuf]
  | rst | step | chb | dec | slc | rdt | ldi | ldp | rdo | rdm | rdh | rds => rfl

theorem commandEffect_withEpoch {i : Instr} (h : readsWritten i s = true) (hc : commandCheck i s = none) (epoch : Nat) :
    commandEffect i (s.withEpoch epoch) = (commandEffect i s).withEpoch epoch := by
  cases i with
  | dec len =>
    have hibuf := readIbuf_withEpoch_of_dec h epoch
    exact decodePairs_withEpoch (fun k hk => hibuf k (by omega)) s epoch
  | decp inLen pLen =>
    obtain ⟨hp, u, hu, -⟩ := checkDecp_eq_none.mp hc
    obtain ⟨hibuf, hpbuf⟩ := reads_withEpoch_of_decp h epoch
    have hbits := expandedBit_congr hp hpbuf hibuf hu
    rw [commandEffect, commandEffect, expandedLength_congr hp hpbuf, hu]
    exact decodePairs_withEpoch (fun k _ => congrFun hbits k) s epoch
  | rst | step | chb | slc | rdt | ldi | ldp | rdo | rdm | rdh | rds => rfl

theorem commandValue_withEpoch {i : Instr} (h : readsWritten i s = true) (hc : commandCheck i s = none) (epoch : Nat) :
    commandValue i (s.withEpoch epoch) = commandValue i s := by
  have heffect := commandEffect_withEpoch h hc epoch
  cases i with
  | dec len => rw [commandValue, heffect]; rfl
  | decp inLen pLen =>
    obtain ⟨hp, -⟩ := checkDecp_eq_none.mp hc
    obtain ⟨-, hpbuf⟩ := reads_withEpoch_of_decp h epoch
    rw [commandValue, heffect, expandedLength_congr hp hpbuf]
    rfl
  | rdo index => rw [commandValue, readObuf_withEpoch h, commandValue]
  | rst | step | chb | slc | rdt | ldi | ldp | rdm | rdh | rds => rfl

/-- A command that reads written elements only does the same under any free values. -/
theorem exec_withEpoch {i : Instr} (h : readsWritten i s = true) (epoch : Nat) :
    ∃ t, exec i s = .next t ∧ exec i (s.withEpoch epoch) = .next (t.withEpoch epoch) := by
  have hcheck := commandCheck_withEpoch h epoch
  cases hc : commandCheck i s with
  | some e => exact ⟨_, exec_of_check_failed hc, exec_of_check_failed (hcheck.trans hc)⟩
  | none =>
    refine ⟨_, exec_of_check_passed hc, ?_⟩
    rw [exec_of_check_passed (hcheck.trans hc), commandEffect_withEpoch h hc, commandValue_withEpoch h hc]
    rfl

/-! ## The step -/

theorem step_of_host_nil (h : s.host = []) : step s = .next s := by
  rw [step, stepWith, h]

theorem step_of_host_cons {action : HostAction} {rest : List HostAction} (h : s.host = action :: rest) :
    step s = perform exec action { s with host := rest } := by
  rw [step, stepWith, h]

theorem performWord_of_decode_ok {run : Instr → State → Host.Outcome State Fault Refusal} {word : Word64} {i : Instr}
    (h : decode word = .ok i) : performWord run word s = run i s := by
  rw [performWord, h]

theorem performWord_of_decode_error {run : Instr → State → Host.Outcome State Fault Refusal} {word : Word64}
    {x : Illegal} (h : decode word = .error x) : performWord run word s = .next (s.reject .illegal) := by
  rw [performWord, h, raise_eq]

/-- What R262 asks of the host when its next action is a command. -/
theorem readsWritten_of_nextActionSafe {word : Word64} {rest : List HostAction} {i : Instr}
    (hsafe : nextActionSafe s = true) (hhost : s.host = .command word :: rest) (hdecode : decode word = .ok i) :
    readsWritten i { s with host := rest } = true := by
  simp only [nextActionSafe, hhost, hdecode] at hsafe
  exact hsafe

end

/-- Settles O52: an idle step, a reset and an illegal word read no buffer, and a command that keeps R262 reads written
elements only. -/
theorem writtenReadsHideFreeValues : Obligations.WrittenReadsHideFreeValues := by
  intro s epoch hsafe
  change ∃ t t', step s = .next t ∧ step (s.withEpoch epoch) = .next t' ∧ t' = t.withEpoch t'.epoch
  match hhost : s.host with
  | [] => exact ⟨_, _, step_of_host_nil hhost, step_of_host_nil hhost, rfl⟩
  | .rst _ :: rest => exact ⟨_, _, step_of_host_cons hhost, step_of_host_cons (s := s.withEpoch epoch) hhost, rfl⟩
  | .command word :: rest =>
    rw [step_of_host_cons hhost, step_of_host_cons (s := s.withEpoch epoch) hhost, perform, perform]
    match hdecode : decode word with
    | .error _ =>
      exact ⟨_, _, performWord_of_decode_error hdecode, performWord_of_decode_error hdecode, rfl⟩
    | .ok i =>
      obtain ⟨t, hexec, hexec'⟩ := exec_withEpoch (readsWritten_of_nextActionSafe hsafe hhost hdecode) epoch
      rw [performWord_of_decode_ok hdecode, performWord_of_decode_ok hdecode]
      exact ⟨t, t.withEpoch epoch, hexec, hexec', rfl⟩

end Sys2Proof.Machine
end

section
/-! PROOFS of the encoding's statements (30_encoding.md R70 to R76, R81): the round trip both ways, the mask and match
table, the response word, and the step on a command word. -/

namespace Sys2Proof

/-! ## The round trip (R70, R72, R75) -/

/-- The family FieldRoundTrip as one statement about every command. -/
theorem fieldRoundTrip : ∀ i : Instr, Laws.FieldRoundTrip.Statement i
  | .rst => Laws.FieldRoundTrip.rst
  | .step position s0 s1 => Laws.FieldRoundTrip.step position s0 s1
  | .chb position bitLength => Laws.FieldRoundTrip.chb position bitLength
  | .dec len => Laws.FieldRoundTrip.dec len
  | .decp inLen pLen => Laws.FieldRoundTrip.decp inLen pLen
  | .slc sample => Laws.FieldRoundTrip.slc sample
  | .rdt halfState => Laws.FieldRoundTrip.rdt halfState
  | .ldi index value => Laws.FieldRoundTrip.ldi index value
  | .ldp index bit => Laws.FieldRoundTrip.ldp index bit
  | .rdo index => Laws.FieldRoundTrip.rdo index
  | .rdm state => Laws.FieldRoundTrip.rdm state
  | .rdh position => Laws.FieldRoundTrip.rdh position
  | .rds => Laws.FieldRoundTrip.rds

theorem fieldsOf_encode {i : Instr} (h : i.wellFormed = true) : fieldsOf (encode i) = encodeFields i :=
  fieldsOf_wordOf (fieldRoundTrip i h).1

/-- Settles O2: the word's fields are the command's, and the family FieldRoundTrip decodes them. -/
theorem decodeOfEncodeIsIdentity : Obligations.DecodeOfEncodeIsIdentity := by
  intro i h
  rw [decode, fieldsOf_encode h]
  exact (fieldRoundTrip i h).2

/-! ## Every accepted word is an encoding (R72, R76) -/

theorem fitsSigned_sext {w x : Nat} (hw : 1 ≤ w) (h : x < 2 ^ w) : FitsSigned w (sext w x) := by
  obtain ⟨w, rfl⟩ := Nat.exists_eq_add_of_le' hw
  have hz : ((2 ^ w : Nat) : Int) = 2 ^ w := by norm_cast
  have hpow : (2 : Int) ^ (w + 1) = 2 ^ w + 2 ^ w := by rw [Int.pow_succ]; omega
  have hx : (x : Int) < 2 ^ (w + 1) := by exact_mod_cast h
  simp only [FitsSigned, sext, Nat.add_sub_cancel]
  split <;> omega

/-- The field of a sign-extended field is the field itself (R75). -/
theorem toNat_sext_emod {w x : Nat} (h : x < 2 ^ w) : (sext w x % 2 ^ w).toNat = x := by
  have hx : (x : Int) < 2 ^ w := by exact_mod_cast h
  have hmod : sext w x % 2 ^ w = x % 2 ^ w := by
    unfold sext
    split
    · rfl
    · exact Int.sub_emod_right ..
  rw [hmod, Int.emod_eq_of_lt (Int.natCast_nonneg x) hx, Int.toNat_natCast]

/-- Fields that decode to a command are the command's own: no field is ignored (R72). -/
theorem encodeFields_of_decodeFields {f : Fields} (hf : f.InRange) {i : Instr} (h : decodeFields f = .ok i) :
    i.wellFormed = true ∧ encodeFields i = f := by
  obtain ⟨opc, pl, n, x, y⟩ := f
  obtain ⟨-, hpl, hn, hx, hy⟩ := hf
  simp only at hpl hn hx hy
  unfold decodeFields at h
  split at h
  -- No row has this opcode.
  case h_14 => cases h
  -- SLC: the sample is X read as signed.
  case h_6 =>
    obtain ⟨hz, rfl⟩ := ifZero_eq_ok.mp h
    have hx : x < 2 ^ Config.params.sampleW := hx
    have hfits := fitsSigned_sext (by decide) hx
    have hfield := toNat_sext_emod hx
    simp_all [Instr.wellFormed, encodeFields]
  -- Each other row: the unused fields are zero, the used ones are the operands.
  all_goals
    obtain ⟨hz, rfl⟩ := ifZero_eq_ok.mp h
    simp_all [Instr.wellFormed, encodeFields, fits16, fits8]

/-- Settles O3: a word is laid out from its fields, and fields that decode are the command's. -/
theorem acceptedWordIsEncoding : Obligations.AcceptedWordIsEncoding := by
  intro w i h
  obtain ⟨hwf, hfields⟩ := encodeFields_of_decodeFields (inRange_fieldsOf w) h
  exact ⟨hwf, by rw [encode, hfields, wordOf_fieldsOf]⟩

/-! ## The mask and match table (R74) -/

/-- Each field ANDed with the mask's field. -/
def Fields.masked (f m : Fields) : Fields := ⟨f.opc &&& m.opc, f.pl &&& m.pl, f.n &&& m.n, f.x &&& m.x, f.y &&& m.y⟩

theorem fieldsOf_and (w m : Word64) : fieldsOf (w &&& m) = (fieldsOf w).masked (fieldsOf m) := by
  have h8 (a b : Nat) : (a &&& b) % 256 = a % 256 &&& b % 256 := Nat.and_mod_two_pow (n := 8)
  have h16 (a b : Nat) : (a &&& b) % 65536 = a % 65536 &&& b % 65536 := Nat.and_mod_two_pow (n := 16)
  simp only [fieldsOf, Fields.masked, BitVec.toNat_and, Nat.and_div_two_pow, h8, h16]

theorem fieldsOf_injective : Function.Injective fieldsOf := Function.LeftInverse.injective wordOf_fieldsOf

/-- A row selects a word exactly when it does so field by field. -/
theorem OpcodeRow.selects_iff {r : OpcodeRow} {w : Word64} :
    r.Selects w ↔ (fieldsOf w).masked (fieldsOf r.mask) = fieldsOf r.pattern := by
  rw [← fieldsOf_and, fieldsOf_injective.eq_iff]

/-- A mask of all ones keeps the field. -/
theorem land_255_of_lt {v : Nat} (h : v < 256) : v &&& 255 = v := Nat.and_two_pow_sub_one_of_lt_two_pow (n := 8) h

theorem land_65535_of_lt {v : Nat} (h : v < 65536) : v &&& 65535 = v :=
  Nat.and_two_pow_sub_one_of_lt_two_pow (n := 16) h

/-- LDP's mask of Y leaves the pattern bit free. -/
theorem land_65534_eq_zero_iff {v : Nat} (h : v < 65536) : v &&& 65534 = 0 ↔ v / 2 = 0 := by
  have hdiv : (v &&& 65534) / 2 = v / 2 := by
    rw [show 2 = 2 ^ 1 from rfl, Nat.and_div_two_pow]
    exact Nat.and_two_pow_sub_one_of_lt_two_pow (n := 15) (by omega)
  have hmod : (v &&& 65534) % 2 = 0 := by
    rw [show 2 = 2 ^ 1 from rfl, Nat.and_mod_two_pow]
    exact Nat.and_zero _
  omega

/-- The row of a command selects its fields: the mask is zero on the fields that the command uses. -/
theorem exists_row_encodeFields (i : Instr) :
    ∃ r ∈ opcodeTable, (encodeFields i).masked (fieldsOf r.mask) = fieldsOf r.pattern ∧ r.mnemonic = i.mnemonic := by
  cases i with
  | ldp index bit =>
    have hbit : bit.toNat &&& 65534 = 0 := (land_65534_eq_zero_iff (by omega)).mpr (by omega)
    simp [opcodeTable, encodeFields, Fields.masked, fieldsOf, Instr.mnemonic, hbit]
  | _ => simp [opcodeTable, encodeFields, Fields.masked, fieldsOf, Instr.mnemonic]

/-- Fields that a row selects decode to a command of that row: its must-be-zero fields are zero (R72). -/
theorem decodeFields_of_masked {f : Fields} (hf : f.InRange) {r : OpcodeRow} (hr : r ∈ opcodeTable)
    (h : f.masked (fieldsOf r.mask) = fieldsOf r.pattern) :
    ∃ i, decodeFields f = .ok i ∧ i.mnemonic = r.mnemonic := by
  obtain ⟨opc, pl, n, x, y⟩ := f
  obtain ⟨hopc, hpl, hn, hx, hy⟩ := hf
  simp only [opcodeTable, List.mem_cons, List.not_mem_nil, or_false] at hr
  simp only at hopc hpl hn hx hy
  have hsample : x / 2 ^ Config.params.sampleW = 0 := Nat.div_eq_of_lt hx
  rcases hr with rfl | rfl | rfl | rfl | rfl | rfl | rfl | rfl | rfl | rfl | rfl | rfl | rfl
  all_goals
    simp [Fields.masked, fieldsOf, land_255_of_lt hopc, land_255_of_lt hpl, land_65535_of_lt hn, land_65535_of_lt hx,
      land_65535_of_lt hy, land_65534_eq_zero_iff hy] at h
    simp [decodeFields, ifZero, Instr.mnemonic, h, hsample]

theorem OpcodeRow.opc_of_selects {r : OpcodeRow} (hr : r ∈ opcodeTable) {w : Word64} (h : r.Selects w) :
    (fieldsOf w).opc = (fieldsOf r.pattern).opc := by
  have hmask : ∀ r ∈ opcodeTable, (fieldsOf r.mask).opc = 255 := by decide
  have hopc := congrArg Fields.opc (selects_iff.mp h)
  simpa [Fields.masked, hmask r hr, land_255_of_lt (inRange_fieldsOf w).1] using hopc

theorem opcodeTable_nodup_opc : (opcodeTable.map fun r => (fieldsOf r.pattern).opc).Nodup := by decide

theorem exists_row_of_decode {w : Word64} {i : Instr} (h : decode w = .ok i) :
    ∃ r ∈ opcodeTable, r.Selects w ∧ r.mnemonic = i.mnemonic := by
  obtain ⟨r, hr, hselects, hname⟩ := exists_row_encodeFields i
  rw [(encodeFields_of_decodeFields (inRange_fieldsOf w) h).2] at hselects
  exact ⟨r, hr, OpcodeRow.selects_iff.mpr hselects, hname⟩

theorem decode_of_selects {w : Word64} {r : OpcodeRow} (hr : r ∈ opcodeTable) (h : r.Selects w) :
    ∃ i, decode w = .ok i ∧ i.mnemonic = r.mnemonic :=
  decodeFields_of_masked (inRange_fieldsOf w) hr (OpcodeRow.selects_iff.mp h)

/-- Settles O4: the table and the decoder agree field by field, and the rows' opcodes are different (R74). -/
theorem decoderFollowsMaskAndMatch : Obligations.DecoderFollowsMaskAndMatch := by
  intro w
  refine ⟨fun i => exists_row_of_decode, fun r => decode_of_selects, fun r hr r' hr' h h' => ?_⟩
  exact List.inj_on_of_nodup_map opcodeTable_nodup_opc hr hr'
    ((OpcodeRow.opc_of_selects hr h).symm.trans (OpcodeRow.opc_of_selects hr' h'))

/-- A word that no row selects decodes to no command (R76). -/
theorem decode_eq_error_of_unselected {w : Word64} (h : ∀ r ∈ opcodeTable, ¬ r.Selects w) :
    ∃ x, decode w = .error x := by
  cases hdecode : decode w with
  | error x => exact ⟨x, rfl⟩
  | ok i =>
    obtain ⟨r, hr, hselects, -⟩ := exists_row_of_decode hdecode
    exact absurd hselects (h r hr)

end Sys2Proof

namespace Sys2Proof.Machine

/-! ## The response word (R73) -/

/-- Concatenation as addition: the two parts do not overlap. -/
theorem toNat_append_eq_add {m n : Nat} (a : BitVec m) (b : BitVec n) : (a ++ b).toNat = a.toNat * 2 ^ n + b.toNat := by
  rw [BitVec.toNat_append, ← Nat.shiftLeft_add_eq_or_of_lt b.isLt, Nat.shiftLeft_eq]

/-- The word value of R73. -/
theorem Response.toNat_word (r : Response) :
    r.word.toNat = r.err.code.toNat * 2 ^ 60 + r.phase.code.toNat * 2 ^ 58 + r.val.toNat := by
  simp only [Response.word, toNat_append_eq_add, BitVec.ofNat_eq_ofNat, BitVec.toNat_zero]
  omega

/-- The bit fields of R73. -/
theorem Response.extractLsb'_word (r : Response) :
    r.word.extractLsb' 60 4 = r.err.code ∧ r.word.extractLsb' 58 2 = r.phase.code ∧
    r.word.extractLsb' 32 26 = 0 ∧ r.word.extractLsb' 0 32 = r.val := by
  have hword := r.toNat_word
  have := r.err.code.isLt; have := r.phase.code.isLt; have := r.val.isLt
  refine ⟨?_, ?_, ?_, ?_⟩ <;>
    (apply BitVec.eq_of_toNat_eq
     simp only [BitVec.extractLsb'_toNat, Nat.shiftRight_eq_div_pow, hword, BitVec.ofNat_eq_ofNat, BitVec.toNat_zero]
     omega)

/-- Settles O5: the word is a concatenation, and the codes are those of R231 and R28. -/
theorem responseWordHasItsFields : Obligations.ResponseWordHasItsFields := by
  intro e p v word err ph
  have herr : e.code.toNat = err := by cases e <;> rfl
  have hph : p.code.toNat = ph := by cases p <;> rfl
  obtain ⟨h1, h2, h3, h4⟩ := (Response.mk e p v).extractLsb'_word
  exact ⟨by rw [← herr, ← hph]; exact Response.toNat_word _, by rw [h1, herr], by rw [h2, hph], h3, h4⟩

/-! ## The step on a command word (R76, R81) -/

/-- Settles O6: the host's action is taken off, and the decoded command performed. -/
theorem stepRunsDecodedCommand : Obligations.StepRunsDecodedCommand := by
  intro s w rest i hhost hdecode
  rw [step_of_host_cons hhost, perform, performWord_of_decode_ok hdecode]

/-- ILLEGAL is the decoder's error alone (60_exceptions.md R234). -/
theorem commandCheck_ne_illegal (i : Instr) (s : State) : commandCheck i s ≠ some .illegal := by
  cases i with
  | step | chb | dec | rdt | ldi | ldp | rdo | rdm | rdh =>
    simp only [commandCheck, checkStep, checkChb, checkDec, checkIndex]
    split_ifs <;> simp
  | decp inLen pLen =>
    simp only [commandCheck, checkDecp]
    split
    · simp
    · split
      · simp
      · split_ifs <;> simp
  | rst | slc | rds => simp [commandCheck]

/-- Every command is answered, and never with ILLEGAL (60_exceptions.md R241). -/
theorem exec_answers_not_illegal (i : Instr) (s : State) :
    ∃ t x, exec i s = .next t ∧ t.response = some x ∧ x.err ≠ .illegal := by
  cases hcheck : commandCheck i s with
  | none => exact ⟨_, _, exec_of_check_passed hcheck, State.reply_response .., by simp⟩
  | some e =>
    refine ⟨_, _, exec_of_check_failed hcheck, State.reject_response .., ?_⟩
    rintro rfl
    exact commandCheck_ne_illegal i s hcheck

/-- Settles O7: a word that no row selects does not decode and is rejected; a selected one decodes, and no command
answers ILLEGAL. -/
theorem unselectedWordIsRejected : Obligations.UnselectedWordIsRejected := by
  refine ⟨rfl, fun s w rest hhost => ⟨fun hnone => ?_, fun ⟨r, hr, hselects⟩ => ?_⟩⟩
  · obtain ⟨x, hdecode⟩ := decode_eq_error_of_unselected hnone
    rw [step_of_host_cons hhost, perform, performWord_of_decode_error hdecode]
    rfl
  · obtain ⟨i, hdecode, -⟩ := decode_of_selects hr hselects
    obtain ⟨t, x, hexec, hanswer⟩ := exec_answers_not_illegal i { s with host := rest }
    exact ⟨i, t, x, hdecode, (stepRunsDecodedCommand s w rest i hhost hdecode).trans hexec, hanswer⟩

end Sys2Proof.Machine
end


section
/-! PROOFS of the slicer's statements (40_soft_bit_slicer.md R101 to R107): one lemma per piece of the two curves, what a
ramp gives between and at its ends, and the real value of a sample. The facts about the curves hold of every
configuration whose levels increase (R101). -/

namespace Sys2Proof.Machine

variable {cfg : Params}

/-! ## The pieces of the two curves (R102, R103) -/

theorem levels_increase :
    cfg.MeetsR8 → cfg.level0 < cfg.level1 ∧ cfg.level1 < cfg.level2 ∧ cfg.level2 < cfg.level3
  | ⟨_, _, ⟨h01, h12, h23, _⟩, _⟩ => ⟨h01, h12, h23⟩

section
variable {x : Int}

theorem sliceB1_of_level2_le (hx : cfg.level2 ≤ x) : sliceB1 cfg x = 0 := if_pos hx

theorem sliceB1_of_le_level1 (h12 : cfg.level1 < cfg.level2) (hx : x ≤ cfg.level1) :
    sliceB1 cfg x = Config.softMax := by
  rw [sliceB1, if_neg (by omega), if_pos hx]

theorem sliceB1_of_ramp (h1 : cfg.level1 < x) (h2 : x < cfg.level2) :
    sliceB1 cfg x = ramp (cfg.level2 - x) (cfg.level2 - cfg.level1) := by
  rw [sliceB1, if_neg (by omega), if_neg (by omega)]

theorem sliceB0_of_level3_le (hx : cfg.level3 ≤ x) : sliceB0 cfg x = Config.softMax := if_pos hx

theorem sliceB0_of_upper_ramp (h2 : cfg.level2 ≤ x) (h3 : x < cfg.level3) :
    sliceB0 cfg x = ramp (x - cfg.level2) (cfg.level3 - cfg.level2) := by
  rw [sliceB0, if_neg (by omega), if_pos h2]

theorem sliceB0_of_centre (h23 : cfg.level2 < cfg.level3) (h1 : cfg.level1 ≤ x) (h2 : x < cfg.level2) :
    sliceB0 cfg x = 0 := by
  rw [sliceB0, if_neg (by omega), if_neg (by omega), if_pos h1]

theorem sliceB0_of_lower_ramp (hr8 : cfg.MeetsR8) (h0 : cfg.level0 ≤ x) (h1 : x < cfg.level1) :
    sliceB0 cfg x = ramp (cfg.level1 - x) (cfg.level1 - cfg.level0) := by
  obtain ⟨-, h12, h23⟩ := levels_increase hr8
  rw [sliceB0, if_neg (by omega), if_neg (by omega), if_neg (by omega), if_pos h0]

theorem sliceB0_of_lt_level0 (hr8 : cfg.MeetsR8) (hx : x < cfg.level0) : sliceB0 cfg x = Config.softMax := by
  obtain ⟨h01, h12, h23⟩ := levels_increase hr8
  rw [sliceB0, if_neg (by omega), if_neg (by omega), if_neg (by omega), if_neg (by omega)]

end

/-! ## A ramp between and at its ends (R104, R107) -/

section
variable {d span : Int}

/-- The soft bit of a ramp is the floor of the exact quotient: within its bounds nothing is cut off by 16 bits. -/
theorem toNat_ofInt_ramp (h0 : 0 ≤ d) (hd : d ≤ span) (hspan : 0 < span) :
    (BitVec.ofInt 16 (ramp d span)).toNat = 65535 * d.toNat / span.toNat := by
  obtain ⟨hlow, hhigh⟩ := ramp_bounds h0 hd hspan
  have hfits : ramp d span % ((2 ^ 16 : Nat) : Int) = ramp d span := Int.emod_eq_of_lt hlow (by omega)
  rw [BitVec.toNat_ofInt, hfits]
  lift d to ℕ using h0
  lift span to ℕ using hspan.le
  rfl

theorem ramp_zero (span : Int) : ramp 0 span = 0 := by rw [ramp, mul_zero, Int.zero_ediv]

theorem ramp_self (hspan : 0 < span) : ramp span span = Config.softMax := Int.mul_ediv_cancel _ hspan.ne'

end

/-- Settles O42: each range of samples is one piece of a curve, and each ramp stays between its ends. -/
theorem slicerFollowsItsCurves : Obligations.SlicerFollowsItsCurves := by
  intro s x _ _ l0 l1 l2 l3
  have hr8 : Config.params.MeetsR8 := params_valid.1
  obtain ⟨h01, h12, h23⟩ : l0 < l1 ∧ l1 < l2 ∧ l2 < l3 := levels_increase hr8
  refine ⟨_, _, exec_slc, ?_, ?_, ?_, ?_, ?_, ?_, ?_, ?_⟩
  -- B1: above, below and on its ramp.
  · intro hx; rw [sliceB1_of_level2_le hx]; rfl
  · intro hx; rw [sliceB1_of_le_level1 h12 hx]; rfl
  · intro h1 h2; rw [sliceB1_of_ramp h1 h2, toNat_ofInt_ramp (by omega) (by omega) (by omega)]
  -- B0, from the greatest samples to the least.
  · intro hx; rw [sliceB0_of_level3_le hx]; rfl
  · intro h2 h3; rw [sliceB0_of_upper_ramp h2 h3, toNat_ofInt_ramp (by omega) (by omega) (by omega)]
  · intro h1 h2; rw [sliceB0_of_centre h23 h1 h2]; rfl
  · intro h0 h1; rw [sliceB0_of_lower_ramp hr8 h0 h1, toNat_ofInt_ramp (by omega) (by omega) (by omega)]
  · intro hx; rw [sliceB0_of_lt_level0 hr8 hx]; rfl

/-! ## The calibration points (R105) -/

theorem sliceB0_level2 (hr8 : cfg.MeetsR8) : sliceB0 cfg cfg.level2 = 0 := by
  obtain ⟨-, -, h23⟩ := levels_increase hr8
  rw [sliceB0_of_upper_ramp le_rfl h23, sub_self, ramp_zero]

theorem sliceB0_level0 (hr8 : cfg.MeetsR8) : sliceB0 cfg cfg.level0 = Config.softMax := by
  obtain ⟨h01, -, -⟩ := levels_increase hr8
  rw [sliceB0_of_lower_ramp hr8 le_rfl h01, ramp_self (sub_pos.mpr h01)]

/-- SLC answers with the soft bits whose numbers the two curves give, and changes nothing else. -/
theorem exec_slc_of_curves {x : Int} {b1 b0 : SoftBit} (s : State) (h1 : sliceB1 Config.params x = b1.toNat)
    (h0 : sliceB0 Config.params x = b0.toNat) :
    exec (.slc x) s = .next { s with response := some ⟨.ok, s.phase, b1 ++ b0⟩ } := by
  rw [exec_slc, h1, h0, BitVec.ofInt_natCast, BitVec.ofInt_natCast, BitVec.ofNat_toNat, BitVec.ofNat_toNat,
    BitVec.setWidth_eq, BitVec.setWidth_eq, State.reply]

/-- Settles O43: a level is an end of a ramp or lies on a constant piece, and the outer ranges are constant pieces. -/
theorem slicerCalibrationPoints : Obligations.SlicerCalibrationPoints := by
  intro s answers
  have hr8 : Config.params.MeetsR8 := params_valid.1
  obtain ⟨h01, h12, h23⟩ := levels_increase hr8
  refine ⟨?_, ?_, ?_, ?_, fun x hx => ?_, fun x hx => ?_⟩
  · exact exec_slc_of_curves s (sliceB1_of_level2_le h23.le) (sliceB0_of_level3_le le_rfl)
  · exact exec_slc_of_curves s (sliceB1_of_level2_le le_rfl) (sliceB0_level2 hr8)
  · exact exec_slc_of_curves s (sliceB1_of_le_level1 h12 le_rfl) (sliceB0_of_centre h23 le_rfl h12)
  · exact exec_slc_of_curves s (sliceB1_of_le_level1 h12 h01.le) (sliceB0_level0 hr8)
  · exact exec_slc_of_curves s (sliceB1_of_level2_le (h23.trans hx).le) (sliceB0_of_level3_le hx.le)
  · exact exec_slc_of_curves s (sliceB1_of_le_level1 h12 (hx.trans h01).le) (sliceB0_of_lt_level0 hr8 hx)

/-! ## The real value of a sample (R101) -/

theorem sampleValue_mono (cfg : Params) : Monotone (sampleValue cfg) := fun x y hxy => by
  unfold sampleValue
  gcongr

theorem sampleValue_params (x : Int) : sampleValue Config.params x = x / 4096 := by
  have hfrac : (2 : Rat) ^ Config.params.sampleFrac = 4096 := by norm_num [Config.params]
  rw [sampleValue, hfrac]

theorem wellFormed_slc {x : Int} : (Instr.slc x).wellFormed = true ↔ -32768 ≤ x ∧ x < 32768 :=
  decide_eq_true_iff

/-- Settles O54: the levels are multiples of 4096, and the value grows with the sample from the least to the greatest
16-bit number. -/
theorem sampleIsFixedPoint : Obligations.SampleIsFixedPoint := by
  have hlevels : sampleValue Config.params (-12288) = -3 ∧ sampleValue Config.params (-4096) = -1 ∧
      sampleValue Config.params 4096 = 1 ∧ sampleValue Config.params 12288 = 3 := by
    norm_num [sampleValue_params]
  have hleast : sampleValue Config.params (-32768) = -8 := by norm_num [sampleValue_params]
  have hgreatest : sampleValue Config.params 32767 = 32767 / 4096 := by norm_num [sampleValue_params]
  obtain ⟨hl0, hl1, hl2, hl3⟩ := hlevels
  refine ⟨hl0, hl1, hl2, hl3, fun x hx => ?_⟩
  obtain ⟨hlow, hhigh⟩ := wellFormed_slc.mp hx
  rw [← hleast, ← hgreatest]
  exact ⟨sampleValue_mono _ hlow, sampleValue_mono _ (Int.le_of_lt_add_one hhigh)⟩

end Sys2Proof.Machine
end

section
/-! PROOFS of the trellis statements (41_trellis_rom.md R122, R124): a step compares its two transitions, and RDT reads
the ROM. -/

namespace Sys2Proof.Machine

/-! ## A step takes the least transition (R122, 42_viterbi_decoder.md R152, R153) -/

/-- The winner of successor `t` is selected between its predecessors' metrics, each advanced by the distance of its
transition under the input bit `t mod 2`; the additions may wrap. -/
theorem survivor_eq_select_transitions (prev : Vector Config.params.Metric 16) {t : Nat} (ht : t < 16)
    (s0 s1 : SoftBit) :
    survivor Config.params prev s0 s1 t =
      select
        (addMetric (metricAt prev (t / 2)) (BitVec.ofNat _ (transitionDistance (t / 2) (t % 2 == 1) s0 s1)))
        (addMetric (metricAt prev (t / 2 + 8))
          (BitVec.ofNat _ (transitionDistance (t / 2 + 8) (t % 2 == 1) s0 s1))) := by
  have hlow : t / 2 / 8 = 0 ∧ t / 2 % 8 = t / 2 := by omega
  have hhigh : (t / 2 + 8) / 8 = 1 ∧ (t / 2 + 8) % 8 = t / 2 := by omega
  rw [transitionDistance_eq_branchMetric, transitionDistance_eq_branchMetric, hlow.1, hlow.2, hhigh.1, hhigh.2,
    survivor]
  rcases Nat.mod_two_eq_zero_or_one t with hbit | hbit <;> rw [hbit] <;> rfl

/-- An addition that stays below 2^METRIC_W is exact (R175). -/
theorem toNat_addMetric_ofNat {w d : Nat} {a : BitVec w} (h : a.toNat + d < 2 ^ w) :
    (addMetric a (BitVec.ofNat w d)).toNat = a.toNat + d := by
  rw [toNat_addMetric, BitVec.toNat_ofNat, Nat.add_mod_mod, Nat.mod_eq_of_lt h]

section
variable {prev : Vector Config.params.Metric 16} {t : Nat} {s0 s1 : SoftBit}

/-- Where neither candidate of successor `t` wraps, its new metric is the lesser one. This asks nothing of the other
states' metrics, unlike `toNat_survivor_eq_min`. -/
theorem toNat_survivor_eq_min_of_candidates (ht : t < 16)
    (hlow : candidate prev (t / 2) (t % 2 == 1) s0 s1 < 2 ^ Config.params.metricW)
    (hhigh : candidate prev (t / 2 + 8) (t % 2 == 1) s0 s1 < 2 ^ Config.params.metricW) :
    (survivor Config.params prev s0 s1 t).2.toNat =
      min (candidate prev (t / 2) (t % 2 == 1) s0 s1) (candidate prev (t / 2 + 8) (t % 2 == 1) s0 s1) := by
  rw [survivor_eq_select_transitions prev ht, toNat_select, toNat_addMetric_ofNat hlow, toNat_addMetric_ofNat hhigh,
    candidate, candidate]

/-- Where neither candidate of successor `t` wraps, its decision bit names the second predecessor exactly when that
candidate is at most the first. -/
theorem survivor_decision_iff_candidate_le (ht : t < 16)
    (hlow : candidate prev (t / 2) (t % 2 == 1) s0 s1 < 2 ^ Config.params.metricW)
    (hhigh : candidate prev (t / 2 + 8) (t % 2 == 1) s0 s1 < 2 ^ Config.params.metricW) :
    (survivor Config.params prev s0 s1 t).1 = true ↔
      candidate prev (t / 2 + 8) (t % 2 == 1) s0 s1 ≤ candidate prev (t / 2) (t % 2 == 1) s0 s1 := by
  rw [survivor_eq_select_transitions prev ht, (select_spec _ _).1, decide_eq_true_iff, BitVec.le_def,
    toNat_addMetric_ofNat hlow, toNat_addMetric_ofNat hhigh, candidate, candidate]

end

/-- Bit `k` of the history word that a step writes is the decision of successor `k` (R154). -/
theorem getLsbD_readHist_trellisStep {cfg : Params} (n : Nat) (s0 s1 : SoftBit) (s : State cfg) {k : Nat}
    (hk : k < 16) :
    ((trellisStep n s0 s1 s).readHist n).getLsbD k = (survivor cfg s.prev s0 s1 k).1 := by
  rw [readHist_trellisStep, if_pos rfl, getLsbD_wordOfBits, decide_eq_true hk, Bool.true_and]

/-- Settles O26: the accepted STEP stores each successor's winner, which is the lesser of two exact sums. -/
theorem stepIsLeastTransition : Obligations.StepIsLeastTransition := by
  intro s n s0 s1 k hn hphase hk b low high hlow hhigh
  have hexec : exec (.step n s0 s1) s = .next ((trellisStep n s0 s1 s).reply 0) :=
    exec_of_check_passed (checkStep_eq_none.mpr ⟨hn, hphase⟩)
  refine ⟨_, hexec, ?_, ?_⟩
  · rw [State.reply_prev, metricAt_trellisStep_prev n s0 s1 s hk]
    exact toNat_survivor_eq_min_of_candidates hk hlow hhigh
  · rw [State.readHist_congr (State.reply_hist _ _), getLsbD_readHist_trellisStep n s0 s1 s hk]
    exact survivor_decision_iff_candidate_le hk hlow hhigh

/-! ## The debug read of the ROM (R124) -/

/-- Settles O44: the returned word joins the two ideal values, and the index check is the command's only one. -/
theorem romReadReturnsEntry : Obligations.RomReadReturnsEntry := by
  intro s n
  refine ⟨fun hn => ⟨_, ?_, toNat_append_eq_add (romEntry Config.params n).ideal0 (romEntry Config.params n).ideal1⟩,
    fun hn => ?_⟩
  · exact exec_of_check_passed (checkIndex_eq_none.mpr (Nat.lt_succ_of_le hn))
  · exact exec_of_check_failed (checkIndex_of_le hn)

end Sys2Proof.Machine
end

section
/-! PROOFS of the decoder's checks (42_viterbi_decoder.md R146, R147, R159, R171; the order of 60_exceptions.md R237) and
of RST (R144). -/

namespace Sys2Proof.Machine

/-! ## The first check that fails -/

section
variable {cfg : Params} {n x len : Nat} {phase : Phase}

theorem checkStep_of_capacity (h : cfg.histLen ≤ n) : checkStep cfg n phase = some .capacity := if_pos h

theorem checkStep_of_chained (h : n < cfg.histLen) (hphase : phase = .chained) :
    checkStep cfg n phase = some .sequence := by
  rw [checkStep, if_neg (Nat.not_le.mpr h), if_pos hphase]

theorem checkChb_of_capacity (h : cfg.histLen < n ∨ cfg.histLen < x) : checkChb cfg n x = some .capacity := if_pos h

theorem checkChb_of_operand (hn : n ≤ cfg.histLen) (hx : x ≤ cfg.histLen) (h : x + 4 < n) :
    checkChb cfg n x = some .operand := by
  have hcapacity : ¬ (n > cfg.histLen ∨ x > cfg.histLen) := by omega
  rw [checkChb, if_neg hcapacity]
  exact if_pos h

theorem checkDec_of_capacity (h : cfg.maxLen < len) : checkDec cfg len = some .capacity := if_pos h

theorem checkDec_of_odd (h : len ≤ cfg.maxLen) (hodd : len % 2 = 1) : checkDec cfg len = some .operand := by
  rw [checkDec, if_neg (Nat.not_lt.mpr h), if_pos hodd]

end

/-! ## The accepted STEP and CHB -/

theorem exec_step_of_accepted {s : State} {n : Nat} (hn : n < Config.params.histLen) (hphase : s.phase ≠ .chained)
    (s0 s1 : SoftBit) : exec (.step n s0 s1) s = .next ((trellisStep n s0 s1 s).reply 0) :=
  exec_of_check_passed (checkStep_eq_none.mpr ⟨hn, hphase⟩)

theorem exec_chb_of_accepted {n x : Nat} (hn : n ≤ Config.params.histLen) (hx : x ≤ Config.params.histLen)
    (hnx : n ≤ x + 4) (s : State) :
    exec (.chb n x) s = .next ((chainback n x s).reply (metricVal (minMetric s.prev))) :=
  exec_of_check_passed (checkChb_eq_none.mpr ⟨hn, hx, hnx⟩)

/-- Settles O17: the checks of STEP exclude each other, and the accepted step enters ACCUM. -/
theorem stepChecksInOrder : Obligations.StepChecksInOrder := fun _ _ s0 s1 =>
  ⟨fun h => exec_of_check_failed (checkStep_of_capacity h),
    fun h hphase => exec_of_check_failed (checkStep_of_chained h hphase),
    fun h hphase => ⟨_, exec_step_of_accepted h hphase s0 s1, rfl⟩⟩

/-- Settles O18: the checks of CHB exclude each other, and the accepted chainback enters CHAINED. -/
theorem chainbackChecksInOrder : Obligations.ChainbackChecksInOrder := fun s _ _ =>
  ⟨fun h => exec_of_check_failed (checkChb_of_capacity h),
    fun hn hx h => exec_of_check_failed (checkChb_of_operand hn hx h),
    fun hn hx h => ⟨_, _, exec_chb_of_accepted hn hx h s, rfl⟩⟩

/-- Settles O19: the checks of DEC exclude each other, and the accepted decode ends in a chainback. -/
theorem decodeChecksInOrder : Obligations.DecodeChecksInOrder := fun s _ =>
  ⟨fun h => exec_of_check_failed (checkDec_of_capacity h),
    fun h hodd => exec_of_check_failed (checkDec_of_odd h hodd),
    fun h heven => ⟨_, _, exec_dec_of_accepted h heven s, rfl⟩⟩

/-! ## RST -/

/-- Settles O22: the answer is the reset decoder, which is in the initial condition and is its own reset. -/
theorem rstRestoresInitialCondition : Obligations.RstRestoresInitialCondition := by
  refine ⟨by decide, fun s => ⟨_, exec_rst, s.initial_resetDecoder, rfl, rfl, by decide, ?_, ?_, rfl, rfl⟩⟩
  · exact ⟨rfl, rfl, rfl⟩
  · exact ⟨rfl, rfl⟩

end Sys2Proof.Machine
end

section
/-! PROOFS of the statements about one trellis step and a run of them (42_viterbi_decoder.md R145 to R158, R175): the
branch metrics, the winners, what they read, and the bounds on the metrics. -/

namespace Sys2Proof.Machine

/-! ## The branch metrics (R150, R151) -/

/-- The two branch metrics of a half-state add up to MAXDIST: the subtraction of R151 never stops at 0. -/
theorem branchMetric1_add_branchMetric0 (s0 s1 : SoftBit) (i : Nat) :
    branchMetric1 Config.params s0 s1 i + branchMetric0 Config.params s0 s1 i = Config.params.maxDist :=
  Nat.sub_add_cancel (branchMetric0_le Config.params s0 s1 i)

/-- Settles O23: each branch metric is a distance, and one is what the other leaves of MAXDIST. -/
theorem branchMetricsAreExactDistances : Obligations.BranchMetricsAreExactDistances := fun s0 s1 i _ =>
  ⟨branchMetric0_eq_softDistance _ s0 s1 i, branchMetric0_le _ s0 s1 i, branchMetric1_add_branchMetric0 s0 s1 i,
    branchMetric1_eq_softDistance s0 s1 i⟩

/-! ## The winners (R152, R153) -/

/-- As metrics, bm1 is MAXDIST − bm0 (R151). -/
theorem ofNat_branchMetric1 (s0 s1 : SoftBit) (i : Nat) :
    BitVec.ofNat Config.params.metricW (branchMetric1 Config.params s0 s1 i) =
      BitVec.ofNat Config.params.metricW Config.params.maxDist -
        BitVec.ofNat Config.params.metricW (branchMetric0 Config.params s0 s1 i) :=
  (BitVec.ofNat_sub_ofNat_of_le _ _ ((branchMetric0_le _ s0 s1 i).trans_lt (by decide))
    (branchMetric0_le _ s0 s1 i)).symm

section
variable (prev : Vector Config.params.Metric 16) (s0 s1 : SoftBit) {i : Nat}

/-- The winner of an even successor is selected between m0 and m1 (R152). -/
theorem survivor_two_mul :
    survivor Config.params prev s0 s1 (2 * i) =
      select (metricAt prev i + BitVec.ofNat _ (branchMetric0 Config.params s0 s1 i))
        (metricAt prev (i + 8) + BitVec.ofNat _ (branchMetric1 Config.params s0 s1 i)) := by
  have hdiv : 2 * i / 2 = i := by omega
  simp only [survivor, hdiv, Nat.mul_mod_right, if_true, addMetric]

/-- The winner of an odd successor is selected between m2 and m3 (R152). -/
theorem survivor_two_mul_add_one :
    survivor Config.params prev s0 s1 (2 * i + 1) =
      select (metricAt prev i + BitVec.ofNat _ (branchMetric1 Config.params s0 s1 i))
        (metricAt prev (i + 8) + BitVec.ofNat _ (branchMetric0 Config.params s0 s1 i)) := by
  have hdiv : (2 * i + 1) / 2 = i := by omega
  have hodd : ¬ (2 * i + 1) % 2 = 0 := by omega
  simp only [survivor, hdiv, if_neg hodd, addMetric]

end

/-- A step stores each successor's winner: its metric in `prev` and its decision in the history word. -/
theorem trellisStep_winner {n : Nat} {s0 s1 : SoftBit} {s : State} {k : Nat} (hk : k < 16)
    {first second : Config.params.Metric} (h : survivor Config.params s.prev s0 s1 k = select first second) :
    metricAt (trellisStep n s0 s1 s).prev k = (if first.toNat ≥ second.toNat then second else first) ∧
      ((trellisStep n s0 s1 s).readHist n).getLsbD k = decide (first.toNat ≥ second.toNat) := by
  obtain ⟨hdecision, hmetric⟩ := select_spec first second
  rw [metricAt_trellisStep_prev n s0 s1 s hk, getLsbD_readHist_trellisStep n s0 s1 s hk, h]
  exact ⟨hmetric, hdecision⟩

theorem sameInputs_trellisStep (n : Nat) (s0 s1 : SoftBit) (s : State) (v : BitVec 32) :
    SameInputs s ((trellisStep n s0 s1 s).reply v) := by simp [SameInputs]

theorem sameOutput_trellisStep (n : Nat) (s0 s1 : SoftBit) (s : State) (v : BitVec 32) :
    SameOutput s ((trellisStep n s0 s1 s).reply v) := by simp [SameOutput]

/-- Settles O24: the winners of successors 2i and 2i + 1 are selected between the candidates of R152; the rest is the
step's frame. -/
theorem stepSelectsSurvivors : Obligations.StepSelectsSurvivors := by
  intro s n s0 s1 hn hphase
  refine ⟨_, exec_step_of_accepted hn hphase s0 s1, fun i hi => ?_, rfl, fun p hp => ?_, rfl, rfl,
    sameInputs_trellisStep n s0 s1 s 0, sameOutput_trellisStep n s0 s1 s 0, by simp⟩
  · have heven := trellisStep_winner (n := n) (k := 2 * i) (by omega) (survivor_two_mul s.prev s0 s1)
    have hodd := trellisStep_winner (n := n) (k := 2 * i + 1) (by omega) (survivor_two_mul_add_one s.prev s0 s1)
    rw [ofNat_branchMetric1, branchMetric0_eq_softDistance] at heven hodd
    simp only [State.reply_prev, State.readHist_congr (State.reply_hist _ _)]
    exact ⟨heven.1, heven.2, hodd.1, hodd.2⟩
  · exact (readHist_trellisStep n s0 s1 s p).trans (if_neg hp)

/-! ## Butterflies (R156) -/

/-- A STEP that answers without an error has performed its trellis step. -/
theorem eq_trellisStep_of_exec {n : Nat} {s0 s1 : SoftBit} {s t : State} {phase : Phase} {v : BitVec 32}
    (h : exec (.step n s0 s1) s = .next t) (hresponse : t.response = some ⟨.ok, phase, v⟩) :
    t = (trellisStep n s0 s1 s).reply 0 := by
  rcases exec_step_cases h with ⟨e, hcheck, rfl⟩ | ⟨-, ht⟩
  · exact absurd (congrArg Response.err (Option.some.inj hresponse)) (checkStep_ne_ok hcheck)
  · exact ht

/-- Settles O25: both steps store the winner of successor k, which depends on its two predecessors' metrics only. -/
theorem butterfliesAreIndependent : Obligations.ButterfliesAreIndependent := by
  intro s s' t t' n n' s0 s1 i hi hlow hhigh hexec hok hexec' hok' k hk
  obtain rfl := eq_trellisStep_of_exec hexec hok
  obtain rfl := eq_trellisStep_of_exec hexec' hok'
  have hk16 : k < 16 := by omega
  have hdiv : k / 2 = i := by omega
  have hwinner : survivor Config.params s.prev s0 s1 k = survivor Config.params s'.prev s0 s1 k := by
    subst hdiv
    exact survivor_congr hlow hhigh s0 s1
  constructor
  · rw [State.reply_prev, State.reply_prev, metricAt_trellisStep_prev _ _ _ _ hk16,
      metricAt_trellisStep_prev _ _ _ _ hk16, hwinner]
  · rw [State.readHist_congr (State.reply_hist _ _), State.readHist_congr (State.reply_hist _ _),
      getLsbD_readHist_trellisStep _ _ _ _ hk16, getLsbD_readHist_trellisStep _ _ _ _ hk16, hwinner]

/-! ## Runs of STEPs (R158, R175) -/

theorem runCommands_cons_of_next {i : Instr} {is : List Instr} {s t : State} (h : exec i s = .next t) :
    runCommands (i :: is) s = runCommands is t := by
  rw [runCommands, h]

/-- A run of accepted STEPs advances the metric bounds by its length. -/
theorem metricBounds_runCommands_steps {steps : List (Nat × SoftBit × SoftBit)} {s : State} {n : Nat}
    (hphase : s.phase ≠ .chained) (hbounds : s.MetricBounds n) (hlen : n + steps.length ≤ Config.params.histLen)
    (hpos : ∀ c ∈ steps, c.1 < Config.params.histLen) :
    ∃ t : State, runCommands (steps.map fun c => .step c.1 c.2.1 c.2.2) s = .next t ∧
      t.MetricBounds (n + steps.length) := by
  induction steps generalizing s n with
  | nil => exact ⟨s, rfl, hbounds⟩
  | cons c steps ih =>
    rw [List.length_cons] at hlen ⊢
    obtain ⟨hc, hsteps⟩ := List.forall_mem_cons.mp hpos
    have hbounds' := metricBounds_trellisStep hbounds params_valid.1 params_two_softMax_le_maxDist (by omega) c.1 c.2.1
      c.2.2
    obtain ⟨t, hrun, ht⟩ := ih (s := (trellisStep c.1 c.2.1 c.2.2 s).reply 0) (n := n + 1) (by simp)
      (hbounds'.of_prev_eq rfl) (by omega) hsteps
    refine ⟨t, ?_, by rwa [Nat.add_comm steps.length, ← Nat.add_assoc]⟩
    rw [List.map_cons, runCommands_cons_of_next (exec_step_of_accepted hc hphase _ _), hrun]

/-- Settles O14: RST establishes the bounds of no step and each STEP advances them; from four steps on every state is
reached. -/
theorem metricsStayInBoundsAfterReset : Obligations.MetricsStayInBoundsAfterReset := by
  intro s steps hlen hpos
  have hreset : State.MetricBounds (s.resetDecoder.reply 0) 0 :=
    (metricBounds_resetDecoder params_valid.1 s).of_prev_eq rfl
  obtain ⟨t, hrun, hbounds⟩ := metricBounds_runCommands_steps (steps := steps) (by simp) hreset (by omega) hpos
  rw [Nat.zero_add] at hbounds
  refine ⟨t, ?_, hbounds, fun hfour k hk => hbounds.toNat_lt_sentinel hlen hk ?_⟩
  · rw [runCommands_cons_of_next exec_rst, hrun]
  · exact hk.trans_le (Nat.pow_le_pow_right (n := 2) (by decide) hfour)

end Sys2Proof.Machine
end

section
/-! PROOFS of the chainback's statements (42_viterbi_decoder.md R159 to R167): the cost, the walk along the survivor path,
and the chainbacks that set no bit. -/

namespace Sys2Proof.Machine

/-! ## The cost (R163) -/

/-- As a VAL, the cost is at most every metric and is one of them. -/
theorem metricVal_minMetric_isLeast (v : Vector Config.params.Metric 16) :
    (∀ k, k < 16 → (metricVal (minMetric v)).toNat ≤ (metricAt v k).toNat) ∧
      ∃ k, k < 16 ∧ (metricVal (minMetric v)).toNat = (metricAt v k).toNat := by
  obtain ⟨k, hk, hmin⟩ := minMetric_attained v
  rw [toNat_metricVal _ params_metricW.le]
  exact ⟨fun k hk => toNat_minMetric_le v hk, k, hk, congrArg BitVec.toNat hmin⟩

/-- A metric file in which state 0 has metric 0 has cost 0. -/
theorem metricVal_minMetric_eq_zero {v : Vector Config.params.Metric 16} (h : metricAt v 0 = 0) :
    metricVal (minMetric v) = 0 := by
  have hle := (metricVal_minMetric_isLeast v).1 0 (by decide)
  rw [h] at hle
  exact BitVec.eq_of_toNat_eq (Nat.le_zero.mp hle)

/-- Settles O27: the chainback writes OBUF and PHASE only, and the VAL is the least metric. -/
theorem chainbackReturnsLeastMetric : Obligations.ChainbackReturnsLeastMetric := by
  intro s n x hn hx hnx
  obtain ⟨hle, hattained⟩ := metricVal_minMetric_isLeast s.prev
  exact ⟨_, _, exec_chb_of_accepted hn hx hnx s, rfl, hle, hattained, rfl, ⟨rfl, rfl, rfl⟩, ⟨rfl, rfl, rfl⟩, rfl⟩

/-- Settles O29: a chainback's OBUF depends on the history alone and its response on the metrics alone. -/
theorem chainbackRepeats : Obligations.ChainbackRepeats := by
  intro s s' n x hn hx hnx hhist hprev
  refine ⟨_, _, exec_chb_of_accepted hn hx hnx s, exec_chb_of_accepted hn hx hnx s', ?_, chainback_obuf_congr hhist n x,
    rfl, rfl, hhist, hprev⟩
  rw [State.reply_response, State.reply_response, hprev, chainback_phase, chainback_phase]

/-! ## The survivor path (R161, R162) -/

/-- The state from which the survivor of state `st` came, `w` being the history word of the step between them (R162). -/
def predecessor (w : HistWord) (st : Nat) : Nat := st / 2 + if w.getLsbD st then 8 else 0

/-- The survivor path that ends in state `st` after step n − 1: its state before step p, for p ≤ n. -/
def survivorState (hist : Nat → HistWord) : (n st p : Nat) → Nat
  | 0, st, _ => st
  | n + 1, st, p => if p ≤ n then survivorState hist n (predecessor (hist n) st) p else st

@[simp] theorem survivorState_self (hist : Nat → HistWord) (n st : Nat) : survivorState hist n st n = st := by
  cases n with
  | zero => rfl
  | succ n => exact if_neg (Nat.not_succ_le_self n)

theorem survivorState_succ_of_le (hist : Nat → HistWord) {n p : Nat} (st : Nat) (h : p ≤ n) :
    survivorState hist (n + 1) st p = survivorState hist n (predecessor (hist n) st) p := if_pos h

/-- Along the path each state is the surviving predecessor of the next. -/
theorem survivorState_eq_predecessor (hist : Nat → HistWord) {n p : Nat} (st : Nat) (h : p < n) :
    survivorState hist n st p = predecessor (hist p) (survivorState hist n st (p + 1)) := by
  induction n generalizing st with
  | zero => exact absurd h (Nat.not_lt_zero p)
  | succ n ih =>
    rw [survivorState_succ_of_le hist st (Nat.le_of_lt_succ h)]
    rcases Nat.lt_succ_iff_lt_or_eq.mp h with hlt | rfl
    · rw [survivorState_succ_of_le hist st hlt, ih _ hlt]
    · rw [survivorState_self, survivorState_self]

/-- The decision bit of step p along the survivor path: what the history holds of the path's state after p (R161). -/
def survivorDecision (hist : Nat → HistWord) (n st p : Nat) : Bool :=
  (hist p).getLsbD (survivorState hist n st (p + 1))

theorem survivorDecision_succ_of_lt (hist : Nat → HistWord) {n p : Nat} (st : Nat) (h : p < n) :
    survivorDecision hist (n + 1) st p = survivorDecision hist n (predecessor (hist n) st) p := by
  rw [survivorDecision, survivorState_succ_of_le hist st h, survivorDecision]

theorem survivorDecision_last (hist : Nat → HistWord) (n st : Nat) :
    survivorDecision hist (n + 1) st n = (hist n).getLsbD st := by
  rw [survivorDecision, survivorState_self]

/-- The bit that the walk leaves for step p is the survivor path's decision there; the register's top nibble is the state
that the walk has reached. -/
theorem obufBitOf_walk (cfg : Params) (hist : Nat → HistWord) {n c p : Nat} (r : BitVec 8) (out : Mem 8) (hc : n ≤ c)
    (hp : p < n) :
    obufBitOf (walk cfg hist n r c out) (c - (n - p)) =
      (survivorDecision hist n (r.extractLsb' 4 4).toNat p || obufBitOf out (c - (n - p))) := by
  induction n generalizing r c out with
  | zero => exact absurd hp (Nat.not_lt_zero p)
  | succ n ih =>
    rcases Nat.lt_succ_iff_lt_or_eq.mp hp with hlt | rfl
    · have hcursor : c - (n + 1 - p) = c - 1 - (n - p) := by omega
      have hother : c - 1 - (n - p) ≠ c - 1 := by omega
      rw [hcursor, walk, ih _ _ (by omega) hlt, topNibble_shift, survivorDecision_succ_of_lt _ _ hlt,
        predecessor]
      congr 1
      split
      · rw [obufBitOf_setObufBit, decide_eq_false hother, Bool.false_or]
      · rfl
    · rw [survivorDecision_last, Nat.add_sub_cancel_left]
      exact obufBitOf_walk_first hist p r c out hc

section
variable {n x : Nat} (s : State)

theorem obufBit_chainback (n x : Nat) {j : Nat} (hj : j < 8 * Config.params.obufBytes) :
    (chainback n x s).obufBit j = obufBitOf (walk Config.params s.readHist n 0 (x + 4) (clearedObuf Config.params)) j :=
  State.obufBit_eq_of_written (written_chainback n x s (Nat.div_lt_of_lt_mul hj))

/-- The chainback leaves the decision bit of step p at bit-string index x + 4 − (n − p) (R161). -/
theorem obufBit_chainback_step {p : Nat} (hx : x ≤ Config.params.histLen) (hnx : n ≤ x + 4) (hp : p < n) :
    (chainback n x s).obufBit (x + 4 - (n - p)) = survivorDecision s.readHist n 0 p := by
  have hbytes : x + 4 - (n - p) < 8 * Config.params.obufBytes := by
    rw [params_histLen] at hx
    rw [params_obufBytes]
    omega
  rw [obufBit_chainback s n x hbytes, obufBitOf_walk _ _ _ _ hnx hp, obufBitOf_clearedObuf, Bool.or_false]
  rfl

/-- The chainback sets no bit outside the n positions below its first cursor. -/
theorem obufBit_chainback_outside {j : Nat} (hnx : n ≤ x + 4) (hj : j < 8 * Config.params.obufBytes)
    (hout : j < x + 4 - n ∨ x + 4 ≤ j) : (chainback n x s).obufBit j = false := by
  rw [obufBit_chainback s n x hj, obufBitOf_walk_outside _ _ _ _ _ hnx hout, obufBitOf_clearedObuf]

end

/-- Settles O28: the path is the survivor path of state 0. -/
theorem chainbackWalksSurvivorPath : Obligations.ChainbackWalksSurvivorPath := by
  intro s n x hn hx hnx
  refine ⟨_, survivorState s.readHist n 0, survivorDecision s.readHist n 0, exec_chb_of_accepted hn hx hnx s,
    survivorState_self _ n 0, fun p hp => ⟨rfl, ?_, ?_⟩, fun j hj hout => ?_, fun k hk => written_chainback n x s hk⟩
  · exact survivorState_eq_predecessor _ 0 hp
  · exact obufBit_chainback_step s hx hnx hp
  · exact obufBit_chainback_outside s hnx hj hout

/-! ## Chainbacks that set no bit (R167) -/

/-- A walk over words that are all 0 sets no bit. -/
theorem walk_of_hist_eq_zero {cfg : Params} {hist : Nat → HistWord} (h : ∀ p, hist p = 0) (n : Nat) (r : BitVec 8)
    (c : Nat) (out : Mem 8) : walk cfg hist n r c out = out := by
  induction n generalizing r c with
  | zero => rfl
  | succ n ih =>
    have hbit (i : Nat) : (hist n).getLsbD i = false := by rw [h n]; exact BitVec.getLsbD_zero
    rw [walk, hbit]
    exact ih _ _

/-- Bytes that the clearing of R160 wrote read as 0. -/
theorem readObuf_of_obuf_eq_cleared {cfg : Params} {s : State cfg} (h : s.obuf = clearedObuf cfg) {k : Nat}
    (hk : k < cfg.obufBytes) : s.readObuf k = 0 := by
  rw [State.readObuf, h, lookup_clearedObuf, if_pos hk, Option.getD_some]

/-- Settles O30: with position 0 the walk is empty; in PHASE RESET the history is all zero and state 0 has metric 0. -/
theorem chainbackWithoutStepsIsEmpty : Obligations.ChainbackWithoutStepsIsEmpty := by
  constructor
  · intro s x hx
    obtain ⟨hle, hattained⟩ := metricVal_minMetric_isLeast s.prev
    exact ⟨_, _, exec_chb_of_accepted (Nat.zero_le _) hx (Nat.zero_le _) s, rfl,
      fun k hk => readObuf_of_obuf_eq_cleared rfl hk, hle, hattained⟩
  · intro s n x hinv hphase hn hx hnx
    obtain ⟨hzero, -, -, hhist⟩ := hinv.reset_initial hphase
    refine ⟨_, exec_chb_of_accepted hn hx hnx s, ?_, fun k hk => readObuf_of_obuf_eq_cleared ?_ hk⟩
    · rw [metricVal_minMetric_eq_zero hzero]; rfl
    · exact walk_of_hist_eq_zero hhist n 0 _ _

end Sys2Proof.Machine
end

section
/-! PROOFS of the decode's statements (42_viterbi_decoder.md R170 to R173): DEC is RST, its STEPs and a CHB, what it
writes, and the decode of no soft bits. -/

namespace Sys2Proof.Machine

/-! ## A decode as a run of commands (R172) -/

theorem runCommands_append {is js : List Instr} {s t : State} (h : runCommands is s = .next t) :
    runCommands (is ++ js) s = runCommands js t := by
  induction is generalizing s with
  | nil => cases h; rfl
  | cons i is ih =>
    rw [runCommands] at h
    cases hexec : exec i s with
    | next u =>
      rw [hexec] at h
      rw [List.cons_append, runCommands_cons_of_next hexec, ih h]
    | fault r => cases r
    | refused r => rw [hexec] at h; cases h

/-- The STEP commands that a decode of `n` soft-bit pairs stands for (R172). -/
def stepCommands (e : Nat → SoftBit) (n : Nat) : List Instr :=
  (List.range n).map fun k => .step k (e (2 * k)) (e (2 * k + 1))

theorem stepCommands_succ (e : Nat → SoftBit) (n : Nat) :
    stepCommands e (n + 1) = stepCommands e n ++ [.step n (e (2 * n)) (e (2 * n + 1))] := by
  rw [stepCommands, List.range_succ, List.map_append]; rfl

theorem runSteps_phase_ne_chained (e : Nat → SoftBit) (n : Nat) {s : State} (h : s.phase ≠ .chained) :
    (runSteps e n s).phase ≠ .chained := by
  cases n with
  | zero => exact h
  | succ n => simp [runSteps_phase_succ]

/-- A step neither reads nor keeps the response before it. -/
theorem trellisStep_reply (n : Nat) (s0 s1 : SoftBit) (s : State) (v v' : BitVec 32) :
    (trellisStep n s0 s1 (s.reply v)).reply v' = (trellisStep n s0 s1 s).reply v' := rfl

/-- The STEP commands, each answered with 0, run the decode's steps. -/
theorem runCommands_stepCommands (e : Nat → SoftBit) {n : Nat} (hn : n ≤ Config.params.histLen) {s : State}
    (hphase : s.phase ≠ .chained) :
    runCommands (stepCommands e n) (s.reply 0) = .next ((runSteps e n s).reply 0) := by
  induction n with
  | zero => rfl
  | succ n ih =>
    have hphase' : ((runSteps e n s).reply 0).phase ≠ .chained := runSteps_phase_ne_chained e n hphase
    rw [stepCommands_succ, runCommands_append (ih (Nat.le_of_succ_le hn)),
      runCommands_cons_of_next (exec_step_of_accepted hn hphase' _ _), trellisStep_reply]
    rfl

/-- Settles O31: RST and the STEPs leave the steps of the decode, and CHB is its chainback. -/
theorem decodeEqualsItsExpansion : Obligations.DecodeEqualsItsExpansion := by
  intro s len hlen heven
  have hhalf := half_le_histLen hlen
  refine ⟨_, exec_dec_of_accepted hlen heven s, ?_⟩
  have hsteps : runCommands ([.rst] ++ stepCommands s.readIbuf (len / 2)) s =
      .next ((runSteps s.readIbuf (len / 2) s.resetDecoder).reply 0) :=
    (runCommands_cons_of_next exec_rst).trans (runCommands_stepCommands s.readIbuf hhalf (by simp))
  exact (runCommands_append hsteps).trans
    (runCommands_cons_of_next (exec_chb_of_accepted hhalf hhalf (Nat.le_add_right _ 4) _))

/-! ## What a decode writes (R170) -/

/-- Settles O32: the run of steps writes HIST below len/2, the chainback all of OBUF, and neither the input buffers. -/
theorem decodeWritesAndFrame : Obligations.DecodeWritesAndFrame := by
  intro s len hlen heven
  obtain ⟨hle, hattained⟩ := metricVal_minMetric_isLeast (decodePairs s.readIbuf (len / 2) s).prev
  refine ⟨_, _, exec_dec_of_accepted hlen heven s, rfl, rfl, hle, hattained, fun p => readHist_decodePairs_of_ge _ s,
    fun k => written_decodePairs _ _ s, ?_, by simp⟩
  simp [SameInputs]

/-! ## The decode of no soft bits (R173) -/

/-- Settles O34: with no step, the decode is the reset decoder's chainback of position 0. -/
theorem emptyDecodeIsAccepted : Obligations.EmptyDecodeIsAccepted := by
  intro s
  refine ⟨_, exec_dec_of_accepted (Nat.zero_le _) rfl s, State.initial_of_eq rfl rfl rfl, rfl, ?_,
    fun k hk => readObuf_of_obuf_eq_cleared rfl hk⟩
  have hcost : metricVal (minMetric (decodePairs s.readIbuf 0 s).prev) = 0 :=
    metricVal_minMetric_eq_zero s.initial_resetDecoder.1
  rw [State.reply_response, decodePairs_phase, Nat.zero_div, hcost]

end Sys2Proof.Machine
end

section
/-! PROOF that the bits DEC leaves are those of a least path (42_viterbi_decoder.md R158, R162, R165, R166, R174): the
survivor path of every reached state attains that state's metric, and the chainback writes the path of state 0. -/

namespace Sys2Proof.Machine

/-! ## The last four input bits are the encoder state (R142) -/

theorem testBit_successor (p : Nat) (b : Bool) {i : Nat} (hi : i < 4) :
    (successor p b).testBit i = if i = 0 then b else p.testBit (i - 1) := by
  have hbit : successor p b = Nat.bit b p % 2 ^ 4 := by rw [Nat.bit_val]; rfl
  rw [hbit, Nat.testBit_mod_two_pow, decide_eq_true hi, Bool.true_and]
  cases i with
  | zero => exact Nat.testBit_bit_zero b p
  | succ i => exact Nat.testBit_bit_succ i b p

/-- Bit i of the encoder state after an input from state 0 is the input bit i places before the last. -/
theorem testBit_encoderState (bits : List Bool) {i : Nat} (hi : i < 4) :
    (encoderState 0 bits).testBit i = (decide (i < bits.length) && bits.getD (bits.length - 1 - i) false) := by
  induction bits using List.reverseRecOn generalizing i with
  | nil => exact Nat.zero_testBit i
  | append_singleton bits b ih =>
    rw [encoderState_concat, testBit_successor _ _ hi, List.length_append, List.length_singleton, Nat.add_sub_cancel]
    cases i with
    | zero => simp
    | succ i =>
      rw [if_neg (Nat.succ_ne_zero i), Nat.add_sub_cancel, ih (Nat.lt_of_succ_lt hi), Nat.add_comm i 1, Nat.sub_sub]
      rcases Nat.lt_or_ge i bits.length with hlt | hge
      · rw [List.getD_append _ _ _ _ (by omega), decide_eq_true hlt, decide_eq_true (by omega)]
      · rw [decide_eq_false (by omega), decide_eq_false (by omega), Bool.false_and, Bool.false_and]

/-- Four flushing zeros lead to state 0 (R165). -/
theorem encoderState_of_flushed {bits : List Bool}
    (h : ∀ k, k < bits.length → bits.length ≤ k + 4 → bits.getD k false = false) : encoderState 0 bits = 0 := by
  refine Nat.eq_of_testBit_eq fun i => ?_
  rw [Nat.zero_testBit]
  rcases Nat.lt_or_ge i 4 with hi | hi
  · rw [testBit_encoderState bits hi]
    rcases Nat.lt_or_ge i bits.length with hlt | hge
    · rw [h _ (by omega) (by omega), Bool.and_false]
    · rw [decide_eq_false (Nat.not_lt.mpr hge), Bool.false_and]
  · exact Nat.testBit_lt_two_pow
      ((encoderState_lt (by decide) bits).trans_le (Nat.pow_le_pow_right (n := 2) (by decide) hi))

/-! ## The input bits of a path of states -/

/-- The input bits that drive the encoder along the states `path 0`, ..., `path n`. -/
def inputBits (path : Nat → Nat) (n : Nat) : List Bool := (List.range n).map fun p => path (p + 1) % 2 == 1

@[simp] theorem length_inputBits (path : Nat → Nat) (n : Nat) : (inputBits path n).length = n := by
  simp [inputBits]

theorem inputBits_succ (path : Nat → Nat) (n : Nat) :
    inputBits path (n + 1) = inputBits path n ++ [path (n + 1) % 2 == 1] := by
  rw [inputBits, List.range_succ, List.map_append]; rfl

theorem inputBits_congr {path path' : Nat → Nat} {n : Nat} (h : ∀ p, p ≤ n → path p = path' p) :
    inputBits path n = inputBits path' n :=
  List.map_congr_left fun p hp => by rw [h (p + 1) (List.mem_range.mp hp)]

theorem getD_inputBits (path : Nat → Nat) {n k : Nat} (h : k < n) :
    (inputBits path n).getD k false = (path (k + 1) % 2 == 1) := by
  simp [inputBits, h]

/-- Driven by the input bits of a path that starts in state 0, the encoder takes that path. -/
theorem encoderState_inputBits {path : Nat → Nat} {n : Nat} (hstart : path 0 = 0)
    (hpath : ∀ p, p < n → successor (path p) (path (p + 1) % 2 == 1) = path (p + 1)) :
    encoderState 0 (inputBits path n) = path n := by
  induction n with
  | zero => exact hstart.symm
  | succ n ih =>
    rw [inputBits_succ, encoderState_concat, ih fun p hp => hpath p (Nat.lt_succ_of_lt hp), hpath n n.lt_succ_self]

/-! ## The survivor path is a path of the encoder (R162) -/

theorem predecessor_lt (w : HistWord) {st : Nat} (h : st < 16) : predecessor w st < 16 := by
  rw [predecessor]
  split <;> omega

/-- A state is the successor of its predecessor under its own lowest bit. -/
theorem successor_predecessor (w : HistWord) {st : Nat} (h : st < 16) :
    successor (predecessor w st) (st % 2 == 1) = st := by
  have hbit : (st % 2 == 1).toNat = st % 2 := by rcases Nat.mod_two_eq_zero_or_one st with h | h <;> simp [h]
  rw [successor, hbit, predecessor]
  split <;> omega

/-- The decision bit is the highest bit of the predecessor. -/
theorem testBit_predecessor (w : HistWord) {st : Nat} (h : st < 16) : (predecessor w st).testBit 3 = w.getLsbD st := by
  have hlow : st / 2 < 2 ^ 3 := by omega
  rw [predecessor]
  cases w.getLsbD st with
  | true =>
    rw [if_pos rfl, Nat.add_comm]
    exact (Nat.testBit_two_pow_add_eq (st / 2) 3).trans (by rw [Nat.testBit_lt_two_pow hlow]; rfl)
  | false => exact Nat.testBit_lt_two_pow hlow

theorem survivorState_lt (hist : Nat → HistWord) {n st : Nat} (p : Nat) (h : st < 16) :
    survivorState hist n st p < 16 := by
  induction n generalizing st with
  | zero => exact h
  | succ n ih =>
    rw [survivorState]
    split
    · exact ih (predecessor_lt _ h)
    · exact h

/-- The survivor path before step n reads the history words below n only. -/
theorem survivorState_congr {hist hist' : Nat → HistWord} {n : Nat} (h : ∀ p, p < n → hist p = hist' p) (st p : Nat) :
    survivorState hist n st p = survivorState hist' n st p := by
  induction n generalizing st with
  | zero => rfl
  | succ n ih => rw [survivorState, survivorState, h n n.lt_succ_self, ih fun p hp => h p (Nat.lt_succ_of_lt hp)]

theorem successor_survivorState (hist : Nat → HistWord) {n st p : Nat} (hst : st < 16) (hp : p < n) :
    successor (survivorState hist n st p) (survivorState hist n st (p + 1) % 2 == 1) =
      survivorState hist n st (p + 1) := by
  rw [survivorState_eq_predecessor hist st hp]
  exact successor_predecessor _ (survivorState_lt hist _ hst)

/-- The input bits of the survivor path that ends in state `st` after step n − 1. -/
def survivorBits (hist : Nat → HistWord) (n st : Nat) : List Bool := inputBits (survivorState hist n st) n

theorem encoderState_survivorBits {hist : Nat → HistWord} {n st : Nat} (hst : st < 16)
    (hstart : survivorState hist n st 0 = 0) : encoderState 0 (survivorBits hist n st) = st := by
  rw [survivorBits, encoderState_inputBits hstart fun p => successor_survivorState hist hst, survivorState_self]

/-- One step more extends the predecessor's survivor path by the lowest bit of the new state. -/
theorem survivorBits_succ (hist : Nat → HistWord) (n st : Nat) :
    survivorBits hist (n + 1) st = survivorBits hist n (predecessor (hist n) st) ++ [st % 2 == 1] := by
  rw [survivorBits, inputBits_succ, survivorState_self, survivorBits,
    inputBits_congr fun p => survivorState_succ_of_le hist st]

/-- Along a survivor path from state 0, the decision bit of step p is the path's input bit four steps earlier, or 0 where
there is none (R165). -/
theorem survivorDecision_eq_getD {hist : Nat → HistWord} {n st p : Nat} (hst : st < 16)
    (hstart : survivorState hist n st 0 = 0) (hp : p < n) :
    survivorDecision hist n st p = if 4 ≤ p then (survivorBits hist n st).getD (p - 4) false else false := by
  have hstate : encoderState 0 (inputBits (survivorState hist n st) p) = survivorState hist n st p :=
    encoderState_inputBits hstart fun q hq => successor_survivorState hist hst (hq.trans hp)
  rw [survivorDecision, ← testBit_predecessor _ (survivorState_lt hist _ hst),
    ← survivorState_eq_predecessor hist st hp, ← hstate, testBit_encoderState _ (by decide), length_inputBits, Nat.sub_sub]
  split
  · next h =>
    rw [decide_eq_true (p := 3 < p) h, Bool.true_and, survivorBits, getD_inputBits _ (by omega),
      getD_inputBits _ (by omega)]
  · next h => rw [decide_eq_false (p := 3 < p) h, Bool.false_and]

/-! ## The survivor path attains the metric (R153, R158) -/

theorem NoWrap.candidate_lt {prev : Vector Config.params.Metric 16} (h : NoWrap prev) {p : Nat} (hp : p < 16) (b : Bool)
    (s0 s1 : SoftBit) : candidate prev p b s0 s1 < 2 ^ Config.params.metricW :=
  (Nat.add_le_add_left (transitionDistance_le p b s0 s1) _).trans_lt (h p hp)

/-- The new metric of a state is the candidate of the predecessor that its decision bit names (R153). -/
theorem toNat_metricAt_trellisStep {s : State} (h : NoWrap s.prev) (n : Nat) (s0 s1 : SoftBit) {k : Nat} (hk : k < 16) :
    (metricAt (trellisStep n s0 s1 s).prev k).toNat =
      candidate s.prev (predecessor ((trellisStep n s0 s1 s).readHist n) k) (k % 2 == 1) s0 s1 := by
  have hlow := h.candidate_lt (p := k / 2) (by omega) (k % 2 == 1) s0 s1
  have hhigh := h.candidate_lt (p := k / 2 + 8) (by omega) (k % 2 == 1) s0 s1
  have hiff := survivor_decision_iff_candidate_le hk hlow hhigh
  rw [metricAt_trellisStep_prev n s0 s1 s hk, toNat_survivor_eq_min h hk, predecessor,
    getLsbD_readHist_trellisStep n s0 s1 s hk]
  split
  · next hdecision => exact Nat.min_eq_right (hiff.mp hdecision)
  · next hdecision => exact Nat.min_eq_left (Nat.le_of_not_le fun hle => hdecision (hiff.mpr hle))

/-- The survivor path of every reached state starts in state 0 and has the state's metric as its distance. -/
def State.SurvivorsAttain (s : State) (e : Nat → SoftBit) (n : Nat) : Prop :=
  ∀ k, k < 16 → k < 2 ^ n →
    survivorState s.readHist n k 0 = 0 ∧ (metricAt s.prev k).toNat = pathDistance e 0 (survivorBits s.readHist n k)

theorem survivorState_trellisStep (n : Nat) (s0 s1 : SoftBit) (s : State) :
    survivorState (trellisStep n s0 s1 s).readHist n = survivorState s.readHist n := by
  funext st p
  exact survivorState_congr (fun q hq => by rw [readHist_trellisStep, if_neg hq.ne]) st p

/-- One step extends the survivor path of the predecessor that wins, which is a reached state. -/
theorem survivorsAttain_trellisStep {s : State} {e : Nat → SoftBit} {n : Nat} (h : s.SurvivorsAttain e n)
    (hbounds : s.MetricBounds n) (hn : n < Config.params.histLen) :
    (trellisStep n (e (2 * n)) (e (2 * n + 1)) s).SurvivorsAttain e (n + 1) := by
  intro k hk hreach
  have hmetric := toNat_metricAt_trellisStep (hbounds.noWrap hn) n (e (2 * n)) (e (2 * n + 1)) hk
  have hnew := metricBounds_trellisStep hbounds params_valid.1 params_two_softMax_le_maxDist hn n (e (2 * n))
    (e (2 * n + 1))
  have hlt := hnew.toNat_lt_sentinel hn hk hreach
  have hq := predecessor_lt ((trellisStep n (e (2 * n)) (e (2 * n + 1)) s).readHist n) hk
  rw [survivorState_succ_of_le _ _ (Nat.zero_le n), survivorBits_succ, survivorBits, survivorState_trellisStep]
  generalize predecessor ((trellisStep n (e (2 * n)) (e (2 * n + 1)) s).readHist n) k = q at hmetric hq ⊢
  rw [hmetric] at hlt ⊢
  obtain ⟨hstart, hdistance⟩ := h q hq (hbounds.lt_two_pow hq ((Nat.le_add_right _ _).trans_lt hlt))
  rw [pathDistance_concat, length_inputBits, ← survivorBits, encoderState_survivorBits hq hstart, candidate, hdistance]
  exact ⟨hstart, rfl⟩

theorem survivorsAttain_runSteps (s : State) (e : Nat → SoftBit) {n : Nat} (hn : n ≤ Config.params.histLen) :
    (runSteps e n s.resetDecoder).SurvivorsAttain e n := by
  induction n with
  | zero =>
    intro k hk hreach
    obtain rfl : k = 0 := by omega
    exact ⟨rfl, rfl⟩
  | succ n ih =>
    have hn' := Nat.le_of_succ_le hn
    exact survivorsAttain_trellisStep (ih hn') (leastDistances_runSteps s e hn').bounds hn

/-! ## The bits of OBUF (R161, R165) -/

/-- Bit k of the survivor path of state 0 lands at bit-string index 8 + k, for all but its last four bits. -/
theorem obufBit_decodePairs (s : State) (e : Nat → SoftBit) {n j : Nat} (hn : n ≤ Config.params.histLen)
    (hstart : survivorState (runSteps e n s.resetDecoder).readHist n 0 0 = 0) (hj : j < 8 * Config.params.obufBytes) :
    (decodePairs e n s).obufBit j =
      if 8 ≤ j ∧ j < n + 4 then (survivorBits (runSteps e n s.resetDecoder).readHist n 0).getD (j - 8) false
      else false := by
  rw [decodePairs]
  by_cases hin : 4 ≤ j ∧ j < n + 4
  · obtain ⟨p, rfl⟩ := Nat.exists_eq_add_of_le hin.1
    have hp : p < n := by omega
    have hindex : 4 + p = n + 4 - (n - p) := by omega
    have hcond : (8 ≤ 4 + p ∧ 4 + p < n + 4) ↔ 4 ≤ p := by omega
    have hbit : 4 + p - 8 = p - 4 := by omega
    rw [if_congr hcond rfl rfl, hbit, ← survivorDecision_eq_getD (by decide) hstart hp, hindex]
    exact obufBit_chainback_step _ hn (Nat.le_add_right n 4) hp
  · rw [obufBit_chainback_outside _ (Nat.le_add_right n 4) hj (by omega)]
    exact (if_neg (by omega)).symm

theorem exec_dec_two_mul {n : Nat} (hn : n ≤ Config.params.histLen) (s : State) :
    exec (.dec (2 * n)) s = .next ((decodePairs s.readIbuf n s).reply
      (metricVal (minMetric (decodePairs s.readIbuf n s).prev))) := by
  have hlen : 2 * n ≤ Config.params.maxLen := Nat.mul_le_mul_left 2 hn
  have hexec := exec_dec_of_accepted hlen (Nat.mul_mod_right 2 n) s
  rwa [Nat.mul_div_cancel_left n (by decide)] at hexec

/-- Settles O36: the survivor path of state 0 attains the metric of state 0, which is the least distance of the paths
that end there. -/
theorem decodedBitsAreLeastFlushedPath : Obligations.DecodedBitsAreLeastFlushedPath := by
  intro s n hn
  have hzero : 0 < 2 ^ n := Nat.two_pow_pos n
  obtain ⟨hstart, hdistance⟩ := survivorsAttain_runSteps s s.readIbuf hn 0 (by decide) hzero
  refine ⟨_, survivorBits (runSteps s.readIbuf n s.resetDecoder).readHist n 0, exec_dec_two_mul hn s,
    length_inputBits _ n, encoderState_survivorBits (by decide) hstart, fun bits hbits hend => ?_, fun j hj => ?_⟩
  · have hle := (leastDistances_runSteps s s.readIbuf hn).le bits hbits
    rwa [hend, hdistance] at hle
  · exact obufBit_decodePairs s s.readIbuf hn hstart hj

/-! ## The zero-noise round trip (R174) -/

theorem softDistance_eq_zero {a b : SoftBit} : softDistance a b = 0 ↔ a = b := by
  rw [softDistance, Int.natAbs_eq_zero, Int.sub_eq_zero, Int.ofNat_inj, BitVec.toNat_inj]

/-- A path is at distance 0 exactly when its ideal soft bits are the received ones. -/
theorem pathDistance_eq_zero {e : Nat → SoftBit} {st : Nat} {bits : List Bool} :
    pathDistance e st bits = 0 ↔ ∀ k, k < 2 * bits.length → (referenceEncode st bits).getD k 0 = e k := by
  simp [pathDistance, List.sum_eq_zero_iff, softDistance_eq_zero]

/-- The two transitions of a state have complementary ideal pairs, so the pair tells the input bit (R122). -/
theorem idealPair_injective (st : Nat) : Function.Injective (idealPair st) := by
  intro b b' h
  have hcomplement : ∀ a : SoftBit, a = 0 ∨ a = 65535 → 65535 - a ≠ a := by rintro a (rfl | rfl) <;> decide
  have hne := hcomplement _ (romEntry_ideal (st % 8)).1
  have hfirst (c : Bool) : (idealPair st c).1 =
      if xor (st / 8 == 1) c then 65535 - (romEntry Config.params (st % 8)).ideal0
      else (romEntry Config.params (st % 8)).ideal0 := by
    rw [idealPair]; split <;> rfl
  have heq := congrArg Prod.fst h
  rw [hfirst, hfirst] at heq
  have hxor : xor (st / 8 == 1) b = xor (st / 8 == 1) b' := by
    split at heq <;> split at heq
    · next hb hb' => rw [hb, hb']
    · exact absurd heq hne
    · exact absurd heq.symm hne
    · next hb hb' => rw [Bool.eq_false_of_not_eq_true hb, Bool.eq_false_of_not_eq_true hb']
  exact Bool.xor_right_inj.mp hxor

theorem referenceEncode_injective (st : Nat) : Function.Injective (referenceEncode st) := by
  intro bits bits' h
  induction bits generalizing st bits' with
  | nil =>
    cases bits' with
    | nil => rfl
    | cons => cases h
  | cons b bits ih =>
    cases bits' with
    | nil => cases h
    | cons b' bits' =>
      obtain ⟨hfirst, hsecond, hrest⟩ : _ ∧ _ ∧ _ := by simpa only [referenceEncode, List.cons.injEq] using h
      obtain rfl := idealPair_injective st (Prod.ext hfirst hsecond)
      rw [ih _ hrest]

/-- Two input bit lists of one length at distance 0 from the same soft bits are equal. -/
theorem eq_of_pathDistance_eq_zero {e : Nat → SoftBit} {st : Nat} {bits bits' : List Bool}
    (hlen : bits.length = bits'.length) (h : pathDistance e st bits = 0) (h' : pathDistance e st bits' = 0) :
    bits = bits' := by
  refine referenceEncode_injective st (List.ext_getElem (by simp [hlen]) fun k hk hk' => ?_)
  rw [length_referenceEncode] at hk hk'
  rw [← List.getD_eq_getElem _ 0, ← List.getD_eq_getElem _ 0, pathDistance_eq_zero.mp h k hk,
    pathDistance_eq_zero.mp h' k hk']

/-- Settles O37: the encoded bits are at distance 0, so the least cost is 0 and the least flushed path is at distance 0
too, which makes it the encoded one. -/
theorem zeroNoiseRoundTrip : Obligations.ZeroNoiseRoundTrip := by
  intro s bits hn hflushed hinput
  have hzero : pathDistance s.readIbuf 0 bits = 0 := pathDistance_eq_zero.mpr fun k hk => (hinput k hk).symm
  obtain ⟨t, best, hexec, hlen, -, hleast, hobuf⟩ := decodedBitsAreLeastFlushedPath s bits.length hn
  obtain ⟨t', v, hexec', hresponse, hcost, -⟩ := decodeCostIsLeastPathDistance s bits.length hn
  obtain rfl : t = t' := Host.Outcome.next.inj (hexec.symm.trans hexec')
  have hbest : best = bits := by
    have hle := hleast bits rfl (encoderState_of_flushed hflushed)
    exact eq_of_pathDistance_eq_zero hlen (Nat.le_zero.mp (hle.trans hzero.le)) hzero
  have hv : v = 0 := BitVec.eq_of_toNat_eq (Nat.le_zero.mp ((hcost bits rfl).trans hzero.le))
  exact ⟨t, hexec, hv ▸ hresponse, hbest ▸ hobuf⟩

end Sys2Proof.Machine
end

section
/-! PROOFS of the adapter's expansion and of DECP's checks (43_punctured_adapter.md R192 to R194): at full-rate position
u the input index is the number of kept positions before u and the pattern index is u mod pLen. -/

namespace Sys2Proof.Machine

section
variable {s : State} {inLen pLen : Nat}

/-! ## The kept positions before a full-rate position (R192) -/

theorem State.kept_iff {p : Nat} : s.kept p = true ↔ s.readPbuf p = 1 := beq_iff_eq

@[simp] theorem keptBefore_zero (s : State) (pLen : Nat) : keptBefore s pLen 0 = 0 := rfl

theorem keptBefore_succ (s : State) (pLen k : Nat) :
    keptBefore s pLen (k + 1) = if s.kept (k % pLen) then keptBefore s pLen k + 1 else keptBefore s pLen k := by
  rw [keptBefore, List.range_succ, List.countP_append, List.countP_singleton, ← keptBefore, ← State.kept]
  split <;> rfl

theorem keptBefore_mono (s : State) (pLen : Nat) : Monotone (keptBefore s pLen) :=
  monotone_nat_of_le_succ fun k => by rw [keptBefore_succ]; split <;> omega

theorem keptBefore_le (s : State) (pLen k : Nat) : keptBefore s pLen k ≤ k :=
  List.countP_le_length.trans_eq List.length_range

theorem keptBefore_eq_zero (hp : pLen ≠ 0) (hnone : ∀ p, p < pLen → s.readPbuf p ≠ 1) (k : Nat) :
    keptBefore s pLen k = 0 :=
  List.countP_eq_zero.mpr fun j _ hkept => hnone _ (Nat.mod_lt j (Nat.pos_of_ne_zero hp)) (beq_iff_eq.mp hkept)

theorem keptBefore_eq_self (hp : pLen ≠ 0) (hall : ∀ p, p < pLen → s.readPbuf p = 1) (k : Nat) :
    keptBefore s pLen k = k :=
  (List.countP_eq_length.mpr fun j _ => beq_iff_eq.mpr (hall _ (Nat.mod_lt j (Nat.pos_of_ne_zero hp)))).trans
    List.length_range

/-! ## The expanded length (R192) -/

/-- The loop of R192 as it stands at full-rate position `u`. -/
def expandedLengthAt (s : State) (inLen pLen room u : Nat) : Option Nat :=
  expandedLengthFrom s.kept inLen pLen room (keptBefore s pLen u) u (u % pLen)

theorem expandedLength_eq_expandedLengthAt (s : State) (inLen pLen : Nat) :
    expandedLength s inLen pLen = expandedLengthAt s inLen pLen Config.params.maxLen 0 := by
  rw [expandedLengthAt, Nat.zero_mod, keptBefore_zero, expandedLength]

theorem expandedLengthAt_zero (s : State) (inLen pLen u : Nat) :
    expandedLengthAt s inLen pLen 0 u = if keptBefore s pLen u < inLen then none else some u := rfl

/-- One turn of the loop moves to the next position. -/
theorem expandedLengthAt_succ (s : State) (inLen pLen room u : Nat) :
    expandedLengthAt s inLen pLen (room + 1) u =
      if keptBefore s pLen u < inLen then expandedLengthAt s inLen pLen room (u + 1) else some u := by
  rw [expandedLengthAt, expandedLengthFrom, ← keptBefore_succ, Nat.mod_add_mod, ← expandedLengthAt]

/-- `v` is the first position before which `inLen` kept positions have passed (R192). -/
def CompletesAt (s : State) (inLen pLen v : Nat) : Prop :=
  keptBefore s pLen v = inLen ∧ ∀ k, k < v → keptBefore s pLen k < inLen

theorem CompletesAt.unique {v w : Nat} (hv : CompletesAt s inLen pLen v) (hw : CompletesAt s inLen pLen w) : v = w := by
  obtain ⟨hveq, hvlt⟩ := hv
  obtain ⟨hweq, hwlt⟩ := hw
  rcases Nat.lt_trichotomy v w with hlt | heq | hgt
  · exact absurd hveq (hwlt v hlt).ne
  · exact heq
  · exact absurd hweq (hvlt w hgt).ne

/-- The count grows by one at most, so it cannot jump over `inLen`. -/
theorem completesAt_of_le {u : Nat} (hbefore : ∀ k, k < u → keptBefore s pLen k < inLen)
    (h : inLen ≤ keptBefore s pLen u) : CompletesAt s inLen pLen u := by
  refine ⟨Nat.le_antisymm ?_ h, hbefore⟩
  cases u with
  | zero => exact Nat.zero_le _
  | succ k =>
    have hk := hbefore k (Nat.lt_succ_self k)
    rw [keptBefore_succ]
    split
    · exact hk
    · exact hk.le

/-- What the loop can answer: the position where the input is consumed, or OVERFLOW when the room does not suffice. -/
theorem expandedLengthAt_cases {room u : Nat} (hbefore : ∀ k, k < u → keptBefore s pLen k < inLen) :
    (∃ v, expandedLengthAt s inLen pLen room u = some v ∧ v ≤ u + room ∧ CompletesAt s inLen pLen v) ∨
      (expandedLengthAt s inLen pLen room u = none ∧ keptBefore s pLen (u + room) < inLen) := by
  induction room generalizing u with
  | zero =>
    rw [expandedLengthAt_zero]
    split
    · next hlt => exact .inr ⟨rfl, hlt⟩
    · next hge => exact .inl ⟨u, rfl, le_rfl, completesAt_of_le hbefore (Nat.le_of_not_lt hge)⟩
  | succ room ih =>
    rw [expandedLengthAt_succ]
    split
    · next hlt =>
      have hnext := ih (Nat.forall_lt_succ_right.mpr ⟨hbefore, hlt⟩)
      rwa [Nat.add_assoc, Nat.add_comm 1 room] at hnext
    · next hge =>
      exact .inl ⟨u, rfl, Nat.le_add_right u _, completesAt_of_le hbefore (Nat.le_of_not_lt hge)⟩

theorem expandedLength_cases (s : State) (inLen pLen : Nat) :
    (∃ v, expandedLength s inLen pLen = some v ∧ v ≤ Config.params.maxLen ∧ CompletesAt s inLen pLen v) ∨
      (expandedLength s inLen pLen = none ∧ keptBefore s pLen Config.params.maxLen < inLen) := by
  rw [expandedLength_eq_expandedLengthAt]
  simpa only [Nat.zero_add] using expandedLengthAt_cases (u := 0) nofun

theorem CompletesAt.le_keptBefore {v n : Nat} (h : CompletesAt s inLen pLen v) (hvn : v ≤ n) :
    inLen ≤ keptBefore s pLen n := h.1.ge.trans (keptBefore_mono s pLen hvn)

theorem expandedLength_eq_none_iff :
    expandedLength s inLen pLen = none ↔ keptBefore s pLen Config.params.maxLen < inLen := by
  rcases expandedLength_cases s inLen pLen with ⟨v, hv, hvmax, hcompletes⟩ | ⟨hnone, hlt⟩
  · rw [hv]
    exact iff_of_false nofun (Nat.not_lt.mpr (hcompletes.le_keptBefore hvmax))
  · exact iff_of_true hnone hlt

theorem expandedLength_eq_some_iff {u : Nat} :
    expandedLength s inLen pLen = some u ↔ u ≤ Config.params.maxLen ∧ CompletesAt s inLen pLen u := by
  rcases expandedLength_cases s inLen pLen with ⟨v, hv, hvmax, hcompletes⟩ | ⟨hnone, hlt⟩
  · rw [hv]
    constructor
    · rintro ⟨⟩
      exact ⟨hvmax, hcompletes⟩
    · rintro ⟨-, hu⟩
      exact congrArg some (hcompletes.unique hu)
  · rw [hnone]
    refine iff_of_false nofun ?_
    rintro ⟨humax, hu⟩
    exact Nat.not_lt.mpr (hu.le_keptBefore humax) hlt

/-! ## The expansion (R193) -/

/-- The soft bit at full-rate position `k`: the next input at a kept position, ERASURE at an omitted one. -/
def softBitAt (s : State) (pLen k : Nat) : SoftBit :=
  if s.kept (k % pLen) then s.readIbuf (keptBefore s pLen k) else Config.params.erasureBit

/-- The loop of R193 from full-rate position `k` on. -/
theorem expandFrom_keptBefore (s : State) (pLen turns k : Nat) :
    expandFrom Config.params s.kept s.readIbuf pLen turns (keptBefore s pLen k) (k % pLen) =
      (List.range' k turns).map (softBitAt s pLen) := by
  induction turns generalizing k with
  | zero => rfl
  | succ turns ih =>
    have hnext := ih (k + 1)
    rw [keptBefore_succ] at hnext
    rw [expandFrom, Nat.mod_add_mod, List.range'_succ, List.map_cons, softBitAt]
    split
    · next hkept => rw [if_pos hkept] at hnext; rw [hnext]
    · next homitted => rw [if_neg homitted] at hnext; rw [hnext]

theorem expansion_eq_map_softBitAt (s : State) (pLen u : Nat) :
    expansion s pLen u = (List.range u).map (softBitAt s pLen) := by
  have hloop := expandFrom_keptBefore s pLen u 0
  rwa [Nat.zero_mod, keptBefore_zero, ← List.range_eq_range'] at hloop

theorem expandedBit_of_lt {u k : Nat} (hk : k < u) : expandedBit s pLen u k = softBitAt s pLen k := by
  rw [expandedBit, expansion_eq_map_softBitAt, List.getD_eq_getElem _ _ (by simpa using hk), List.getElem_map,
    List.getElem_range]

/-- Settles O38: the loop's answer is the first length that consumes the input, and position k of the expansion is
position k of the pattern's cycle. -/
theorem expansionFollowsPattern : Obligations.ExpansionFollowsPattern := by
  refine fun s inLen pLen _ => ⟨fun u => expandedLength_eq_some_iff, expandedLength_eq_none_iff,
    fun u => length_expandFrom _ _ _ u 0 0, fun u k hk => ?_⟩
  rw [← expandedBit, expandedBit_of_lt hk, softBitAt]
  exact if_congr State.kept_iff rfl rfl

/-! ## The checks of DECP (R194) -/

theorem checkDecp_zero_period : checkDecp s inLen 0 = some .operand := rfl

theorem checkDecp_of_overflow (hp : pLen ≠ 0) (h : keptBefore s pLen Config.params.maxLen < inLen) :
    checkDecp s inLen pLen = some .capacity := by
  rw [checkDecp, if_neg hp, expandedLength_eq_none_iff.mpr h]

theorem checkDecp_of_odd (hp : pLen ≠ 0) {u : Nat} (hu : expandedLength s inLen pLen = some u) (hodd : u % 2 = 1) :
    checkDecp s inLen pLen = some .operand := by
  rw [checkDecp, if_neg hp, hu]
  exact if_pos hodd

end

/-- Settles O20: an input above MAX_LEN and a pattern with no kept position leave too few kept positions among the first
MAX_LEN. -/
theorem puncturedChecksInOrder : Obligations.PuncturedChecksInOrder := by
  intro s inLen pLen rejected
  have hcapacity (hp : pLen ≠ 0) (h : keptBefore s pLen Config.params.maxLen < inLen) :
      exec (.decp inLen pLen) s = rejected .capacity := exec_of_check_failed (checkDecp_of_overflow hp h)
  refine ⟨?_, hcapacity, fun hp hlong => ?_, fun hp hpos hnone => ?_, fun u hp hu hodd => ?_, fun u hp hu heven => ?_⟩
  · rintro rfl
    exact exec_of_check_failed checkDecp_zero_period
  · exact hcapacity hp ((keptBefore_le s pLen _).trans_lt hlong)
  · exact hcapacity hp ((keptBefore_eq_zero hp hnone _).trans_lt hpos)
  · exact exec_of_check_failed (checkDecp_of_odd hp hu hodd)
  · exact ⟨_, _, exec_decp_of_accepted hp hu heven, rfl⟩

end Sys2Proof.Machine
end

section
/-! PROOFS that DECP is the decode of its expansion with the cost corrected (43_punctured_adapter.md R191, R196, R197,
R200). -/

namespace Sys2Proof.Machine

/-! ## A decode reads IBUF through its soft bits only (R196) -/

/-- The same state with another input buffer. -/
def State.withIbuf (s : State) (ibuf : Mem 16) : State := { s with ibuf := ibuf }

theorem runSteps_withIbuf (e : Nat → SoftBit) (n : Nat) (s : State) (ibuf : Mem 16) :
    runSteps e n (s.withIbuf ibuf) = (runSteps e n s).withIbuf ibuf := by
  induction n with
  | zero => rfl
  | succ n ih => rw [runSteps_succ, ih, runSteps_succ]; rfl

theorem decodePairs_withIbuf (e : Nat → SoftBit) (n : Nat) (s : State) (ibuf : Mem 16) :
    decodePairs e n (s.withIbuf ibuf) = (decodePairs e n s).withIbuf ibuf := by
  have hrun : runSteps e n (s.withIbuf ibuf).resetDecoder = (runSteps e n s.resetDecoder).withIbuf ibuf :=
    runSteps_withIbuf e n s.resetDecoder ibuf
  rw [decodePairs, hrun]
  rfl

theorem readIbuf_withIbuf_of_lookup {s : State} {ibuf : Mem 16} {k : Nat} {v : SoftBit}
    (h : Mem.lookup ibuf k = some v) : (s.withIbuf ibuf).readIbuf k = v := by
  show (Mem.lookup ibuf k).getD _ = v
  rw [h, Option.getD_some]

/-- At METRIC_W = 32 the correction of the metric is that of VAL. -/
theorem metricVal_subMetric_erasureBias (m : Config.params.Metric) (u inLen : Nat) :
    metricVal (subMetric m (erasureBias Config.params u inLen)) =
      metricVal m - BitVec.ofNat 32 ((u - inLen) * Config.params.erasure) := by
  have hwidth (m : Config.params.Metric) : metricVal m = m := BitVec.setWidth_eq m
  rw [hwidth, hwidth, subMetric, erasureBias]
  rfl

/-- Settles O39: DEC of the expansion runs the same soft bits, and IBUF takes no part otherwise. -/
theorem puncturedDecodeIsDecodeOfExpansion : Obligations.PuncturedDecodeIsDecodeOfExpansion := by
  intro s inLen pLen u ibuf hp hu heven hibuf
  have hdecode : decodePairs (s.withIbuf ibuf).readIbuf (u / 2) (s.withIbuf ibuf) =
      (decodePairs (expandedBit s pLen u) (u / 2) s).withIbuf ibuf := by
    rw [decodePairs_congr (e' := expandedBit s pLen u), decodePairs_withIbuf]
    exact fun k hk => readIbuf_withIbuf_of_lookup (hibuf k (by omega))
  have hexec := exec_dec_of_accepted (expandedLength_le hu) heven (s.withIbuf ibuf)
  rw [hdecode] at hexec
  refine ⟨_, _, hexec, rfl, ?_⟩
  rw [exec_decp_of_accepted hp hu heven, metricVal_subMetric_erasureBias,
    ← decodePairs_ibuf (expandedBit s pLen u) (u / 2) s]
  rfl

/-! ## A pattern with every position kept (R200) -/

section
variable {s : State} {inLen pLen : Nat} (hp : pLen ≠ 0) (hall : ∀ p, p < pLen → s.readPbuf p = 1)

include hp hall

theorem expandedLength_of_all_kept (hlen : inLen ≤ Config.params.maxLen) :
    expandedLength s inLen pLen = some inLen :=
  expandedLength_eq_some_iff.mpr ⟨hlen, keptBefore_eq_self hp hall inLen, fun k hk => by
    rwa [keptBefore_eq_self hp hall]⟩

theorem expandedBit_of_all_kept {k : Nat} (hk : k < inLen) : expandedBit s pLen inLen k = s.readIbuf k := by
  have hkept : s.kept (k % pLen) := State.kept_iff.mpr (hall _ (Nat.mod_lt k (Nat.pos_of_ne_zero hp)))
  rw [expandedBit_of_lt hk, softBitAt, if_pos hkept, keptBefore_eq_self hp hall]

/-- No erasure is inserted, so the decode and its cost are those of the input itself. -/
theorem exec_decp_of_all_kept (hlen : inLen ≤ Config.params.maxLen) (heven : inLen % 2 = 0) :
    exec (.decp inLen pLen) s = exec (.dec inLen) s := by
  have hdecode : decodePairs (expandedBit s pLen inLen) (inLen / 2) s = decodePairs s.readIbuf (inLen / 2) s :=
    decodePairs_congr (fun k hk => expandedBit_of_all_kept hp hall (by omega)) s
  rw [exec_decp_of_accepted hp (expandedLength_of_all_kept hp hall hlen) heven, exec_dec_of_accepted hlen heven, hdecode,
    metricVal_subMetric_erasureBias, Nat.sub_self, Nat.zero_mul, BitVec.sub_zero]

end

/-- Settles O40: the checks of the two commands fail alike, and an accepted expansion is the input. -/
theorem allKeptPatternIsPlainDecode : Obligations.AllKeptPatternIsPlainDecode := by
  intro s inLen pLen hp hall
  refine ⟨expandedLength_of_all_kept hp hall, ?_⟩
  rcases Nat.lt_or_ge Config.params.maxLen inLen with hlong | hlen
  · have hoverflow := (keptBefore_eq_self hp hall Config.params.maxLen).trans_lt hlong
    exact ⟨_, exec_of_check_failed (checkDecp_of_overflow hp hoverflow),
      exec_of_check_failed (checkDec_of_capacity hlong)⟩
  rcases Nat.mod_two_eq_zero_or_one inLen with heven | hodd
  · have hdec := exec_dec_of_accepted hlen heven s
    exact ⟨_, (exec_decp_of_all_kept hp hall hlen heven).trans hdec, hdec⟩
  · exact ⟨_, exec_of_check_failed (checkDecp_of_odd hp (expandedLength_of_all_kept hp hall hlen) hodd),
      exec_of_check_failed (checkDec_of_odd hlen hodd)⟩

/-! ## Every path pays for every erasure (R197) -/

theorem complement_ideal {a : SoftBit} (ha : a = 0 ∨ a = 65535) : 65535 - a = 0 ∨ 65535 - a = 65535 := by
  rcases ha with rfl | rfl <;> decide

theorem idealPair_ideal (p : Nat) (b : Bool) :
    ((idealPair p b).1 = 0 ∨ (idealPair p b).1 = 65535) ∧ ((idealPair p b).2 = 0 ∨ (idealPair p b).2 = 65535) := by
  obtain ⟨h0, h1⟩ := romEntry_ideal (p % 8)
  rw [idealPair]
  split
  · exact ⟨complement_ideal h0, complement_ideal h1⟩
  · exact ⟨h0, h1⟩

theorem referenceEncode_ideal {st : Nat} {bits : List Bool} {a : SoftBit} (ha : a ∈ referenceEncode st bits) :
    a = 0 ∨ a = 65535 := by
  induction bits generalizing st with
  | nil => cases ha
  | cons b bits ih =>
    obtain ⟨hfirst, hsecond⟩ := idealPair_ideal st b
    rcases List.mem_cons.mp ha with rfl | ha
    · exact hfirst
    rcases List.mem_cons.mp ha with rfl | ha
    · exact hsecond
    · exact ih ha

/-- An erased position is at least ERASURE away from either ideal value. -/
theorem erasure_le_softDistance {a : SoftBit} (ha : a = 0 ∨ a = 65535) :
    Config.params.erasure ≤ softDistance a Config.params.erasureBit := by
  rcases ha with rfl | rfl <;> decide

/-- A sum over the first `n` positions that counts ERASURE or more at each omitted one. -/
theorem erasures_le_sum {s : State} {pLen : Nat} {f : Nat → Nat} {n : Nat}
    (h : ∀ k, k < n → s.kept (k % pLen) = false → Config.params.erasure ≤ f k) :
    (n - keptBefore s pLen n) * Config.params.erasure ≤ ((List.range n).map f).sum := by
  induction n with
  | zero =>
    rw [Nat.zero_sub, Nat.zero_mul]
    exact Nat.zero_le _
  | succ n ih =>
    have hrest := ih fun k hk => h k (Nat.lt_succ_of_lt hk)
    have hle := keptBefore_le s pLen n
    rw [List.range_succ, List.map_append, List.sum_append, List.map_singleton, List.sum_singleton, keptBefore_succ]
    split
    · rw [Nat.add_sub_add_right]
      exact hrest.trans (Nat.le_add_right _ _)
    · next homitted =>
      rw [Nat.succ_sub hle, Nat.succ_mul]
      exact Nat.add_le_add hrest (h n (Nat.lt_succ_self n) (Bool.eq_false_of_not_eq_true homitted))

/-- Whatever the input bits, a path is at least ERASURE away from the expansion for every erasure in it. -/
theorem erasures_le_pathDistance (s : State) (pLen : Nat) {u : Nat} {bits : List Bool} (hbits : 2 * bits.length = u) :
    (u - keptBefore s pLen u) * Config.params.erasure ≤ pathDistance (expandedBit s pLen u) 0 bits := by
  rw [pathDistance, hbits]
  refine erasures_le_sum fun k hk homitted => ?_
  have hlen : k < (referenceEncode 0 bits).length := by rwa [length_referenceEncode, hbits]
  rw [expandedBit_of_lt hk, softBitAt, homitted, List.getD_eq_getElem _ _ hlen]
  exact erasure_le_softDistance (referenceEncode_ideal (List.getElem_mem hlen))

/-- The least metric of an accepted DECP is the distance of some path, so it is at least the bias. -/
theorem erasures_le_minMetric {s : State} {inLen pLen u : Nat} (hu : expandedLength s inLen pLen = some u)
    (heven : u % 2 = 0) :
    (u - inLen) * Config.params.erasure ≤
      (minMetric (decodePairs (expandedBit s pLen u) (u / 2) s).prev).toNat := by
  obtain ⟨hmax, hkept, -⟩ := expandedLength_eq_some_iff.mp hu
  have hn := half_le_histLen hmax
  obtain ⟨bits, hbits, hmin⟩ := (leastDistances_runSteps s (expandedBit s pLen u) hn).minMetric_attained hn
  rw [decodePairs_prev, hmin, ← hkept]
  exact erasures_le_pathDistance s pLen (by omega)

/-- A correction that is at most the metric is exact. -/
theorem toNat_metricVal_subMetric_erasureBias {m : Config.params.Metric} {u inLen : Nat}
    (h : (u - inLen) * Config.params.erasure ≤ m.toNat) :
    (metricVal (subMetric m (erasureBias Config.params u inLen))).toNat + (u - inLen) * Config.params.erasure =
      m.toNat := by
  have hbias : (erasureBias Config.params u inLen).toNat = (u - inLen) * Config.params.erasure :=
    Nat.mod_eq_of_lt (h.trans_lt m.isLt)
  have hle : erasureBias Config.params u inLen ≤ m := BitVec.le_def.mpr (hbias.trans_le h)
  rw [toNat_metricVal _ params_metricW.le, subMetric, BitVec.toNat_sub_of_le hle, hbias, Nat.sub_add_cancel h]

/-- Settles O41: the bias is at most the least metric, so the subtraction is exact. -/
theorem correctedCostNeverWraps : Obligations.CorrectedCostNeverWraps := by
  intro s inLen pLen u hp hu heven
  obtain ⟨k, hk, hmin⟩ := minMetric_attained (decodePairs (expandedBit s pLen u) (u / 2) s).prev
  have hexact := toNat_metricVal_subMetric_erasureBias (erasures_le_minMetric hu heven)
  refine ⟨_, _, exec_decp_of_accepted hp hu heven, rfl, fun j hj => ?_, k, hk, ?_⟩
  · rw [hexact]
    exact toNat_minMetric_le _ hj
  · rw [hexact, hmin]
    rfl

end Sys2Proof.Machine
end

section
/-! PROOFS of the statements about buffer access and the debug reads (44_buffer_and_debug.md R210 to R216): what LDI and
LDP write, what the reads return, and which commands write which space. -/

namespace Sys2Proof.Machine

variable {cfg : Params}

/-! ## Who writes what (R216, 20_memory.md R50, 43_punctured_adapter.md R195) -/

/-- A part of the state that the response is no part of stays as it was when the command's effect keeps it: a rejection
changes the response only, and so does the reply (60_exceptions.md R232). -/
theorem eq_of_exec_of_commandEffect_eq {α : Type} {part : State → α}
    (hpart : ∀ u r, part { u with response := r } = part u) {i : Instr} {s t : State} (hexec : exec i s = .next t)
    (heffect : part (commandEffect i s) = part s) : part t = part s := by
  rcases exec_cases hexec with ⟨e, -, rfl⟩ | ⟨-, v, rfl⟩
  · exact hpart s _
  · exact (hpart _ _).trans heffect

theorem commandEffect_host (i : Instr) (s : State) : (commandEffect i s).host = s.host := by
  cases i with
  | dec | decp => exact decodePairs_host _ _ s
  | rst | step | chb | slc | rdt | ldi | ldp | rdo | rdm | rdh | rds => rfl

theorem commandEffect_epoch (i : Instr) (s : State) : (commandEffect i s).epoch = s.epoch := by
  cases i with
  | dec | decp => exact decodePairs_epoch _ _ s
  | rst | step | chb | slc | rdt | ldi | ldp | rdo | rdm | rdh | rds => rfl

/-- Settles O50: space by space, the effect of a command that is no writer of the space keeps it. -/
theorem eachSpaceHasItsWriters : Obligations.EachSpaceHasItsWriters := by
  intro i s t hexec
  have hprev := eq_of_exec_of_commandEffect_eq (part := State.prev) (fun _ _ => rfl) hexec
  have hcurr := eq_of_exec_of_commandEffect_eq (part := State.curr) (fun _ _ => rfl) hexec
  have hhist := eq_of_exec_of_commandEffect_eq (part := State.hist) (fun _ _ => rfl) hexec
  have hibuf := eq_of_exec_of_commandEffect_eq (part := State.ibuf) (fun _ _ => rfl) hexec
  have hpbuf := eq_of_exec_of_commandEffect_eq (part := State.pbuf) (fun _ _ => rfl) hexec
  have hobuf := eq_of_exec_of_commandEffect_eq (part := State.obuf) (fun _ _ => rfl) hexec
  refine ⟨?trellis, ?ibuf, ?pbuf, ?obuf,
    eq_of_exec_of_commandEffect_eq (fun _ _ => rfl) hexec (commandEffect_host i s),
    eq_of_exec_of_commandEffect_eq (fun _ _ => rfl) hexec (commandEffect_epoch i s)⟩
  case trellis =>
    cases i with
    | rst | step | dec | decp => trivial
    | chb | slc | rdt | ldi | ldp | rdo | rdm | rdh | rds => exact ⟨hprev rfl, hcurr rfl, hhist rfl⟩
  case ibuf =>
    cases i with
    | ldi => trivial
    | dec | decp => exact hibuf (decodePairs_ibuf _ _ s)
    | rst | step | chb | slc | rdt | ldp | rdo | rdm | rdh | rds => exact hibuf rfl
  case pbuf =>
    cases i with
    | ldp => trivial
    | dec | decp => exact hpbuf (decodePairs_pbuf _ _ s)
    | rst | step | chb | slc | rdt | ldi | rdo | rdm | rdh | rds => exact hpbuf rfl
  case obuf =>
    cases i with
    | chb | dec | decp => trivial
    | rst | step | slc | rdt | ldi | ldp | rdo | rdm | rdh | rds => exact hobuf rfl

/-! ## LDI and LDP (R210, R211) -/

/-- In a space whose unlisted elements are unspecified, a write makes its element a written one. -/
theorem Mem.written_write_self {w : Nat} {sp : Space w} (hsp : sp.unlisted = none) (m : Mem w) (i : Nat)
    (v : BitVec w) : Mem.written (Mem.write sp m i v) i = true := by
  rw [Mem.written, Mem.lookup_write, if_pos rfl, hsp, if_neg nofun, Option.isSome_some]

theorem Mem.written_write_of_ne {w : Nat} (sp : Space w) (m : Mem w) {i j : Nat} (hj : j ≠ i) (v : BitVec w) :
    Mem.written (Mem.write sp m i v) j = Mem.written m j := by
  rw [Mem.written, Mem.lookup_write, if_neg hj, Mem.written]

theorem written_writeIbuf_self (s : State cfg) (i : Nat) (v : SoftBit) :
    Mem.written (s.writeIbuf i v).ibuf i = true := Mem.written_write_self (sp := ibufSpace cfg) rfl s.ibuf i v

theorem written_writeIbuf_of_ne (s : State cfg) {i j : Nat} (hj : j ≠ i) (v : SoftBit) :
    Mem.written (s.writeIbuf i v).ibuf j = Mem.written s.ibuf j :=
  Mem.written_write_of_ne (ibufSpace cfg) s.ibuf hj v

theorem written_writePbuf_self (s : State cfg) (i : Nat) (b : BitVec 1) :
    Mem.written (s.writePbuf i b).pbuf i = true := Mem.written_write_self (sp := pbufSpace cfg) rfl s.pbuf i b

theorem written_writePbuf_of_ne (s : State cfg) {i j : Nat} (hj : j ≠ i) (b : BitVec 1) :
    Mem.written (s.writePbuf i b).pbuf j = Mem.written s.pbuf j :=
  Mem.written_write_of_ne (pbufSpace cfg) s.pbuf hj b

@[simp] theorem State.readIbuf_reply (s : State cfg) (v : BitVec 32) : (s.reply v).readIbuf = s.readIbuf := rfl

@[simp] theorem State.readPbuf_reply (s : State cfg) (v : BitVec 32) : (s.reply v).readPbuf = s.readPbuf := rfl

/-- Settles O46: the accepted LDI is one write of IBUF, and the index check is its only one. -/
theorem ldiStoresOneElement : Obligations.LdiStoresOneElement := by
  intro s n v
  refine ⟨fun hn => ?_, fun hn => exec_of_check_failed (checkIndex_of_le hn)⟩
  have hexec : exec (.ldi n v) s = .next ((s.writeIbuf n v).reply 0) :=
    exec_of_check_passed (checkIndex_eq_none.mpr hn)
  refine ⟨_, hexec, by simp, written_writeIbuf_self s n v,
    fun j hj => ⟨by simp [hj], written_writeIbuf_of_ne s hj v⟩, ?_, rfl, rfl, ?_, rfl, rfl⟩
  · exact ⟨rfl, rfl, rfl⟩
  · exact ⟨rfl, rfl⟩

/-- Settles O47: the accepted LDP is one write of PBUF, and the index check is its only one. -/
theorem ldpStoresOneBit : Obligations.LdpStoresOneBit := by
  intro s n b
  refine ⟨fun hn => ?_, fun hn => exec_of_check_failed (checkIndex_of_le hn)⟩
  have hexec : exec (.ldp n b) s = .next ((s.writePbuf n b).reply 0) :=
    exec_of_check_passed (checkIndex_eq_none.mpr hn)
  refine ⟨_, hexec, by simp, written_writePbuf_self s n b,
    fun j hj => ⟨by simp [hj], written_writePbuf_of_ne s hj b⟩, ?_, rfl, rfl, ?_, rfl, rfl⟩
  · exact ⟨rfl, rfl, rfl⟩
  · exact ⟨rfl, rfl⟩

/-! ## The debug reads (R212 to R215) -/

/-- The status value fits its 32 bits, because R8 (d) bounds HIST_LEN. -/
theorem toNat_statusValue (h : cfg.MeetsR8) (p : Phase) :
    (statusValue cfg p).toNat = cfg.histLen * 65536 + p.code.toNat := by
  obtain ⟨-, -, -, hmax⟩ := h
  have hcode := p.code.isLt
  rw [Params.maxLen] at hmax
  exact Nat.mod_eq_of_lt (by omega)

/-- Settles O48: each read's value is the element, which fits the 32 bits of VAL, and its effect is none. -/
theorem debugReadsReturnState : Obligations.DebugReadsReturnState := by
  intro s n returns
  refine ⟨fun hn => ⟨_, exec_of_check_passed (checkIndex_eq_none.mpr hn), ?rdo⟩,
    fun hn => ⟨_, exec_of_check_passed (checkIndex_eq_none.mpr hn), ?rdm⟩,
    fun hn => ⟨_, exec_of_check_passed (checkIndex_eq_none.mpr hn), ?rdh⟩, ⟨_, exec_rds, ?rds⟩⟩
  case rdo => exact BitVec.toNat_setWidth_of_le (by decide)
  case rdm => exact toNat_metricVal _ params_metricW.le
  case rdh => exact BitVec.toNat_setWidth_of_le (by decide)
  case rds =>
    rw [toNat_statusValue params_valid.1]
    cases s.phase <;> rfl

end Sys2Proof.Machine
end

section
/-! PROOFS of the statements about answers and rejections (60_exceptions.md R232, R239, R241, R243): every command and
every step has an answer, a rejection leaves the state alone, and so does an idle step. -/

namespace Sys2Proof.Machine

/-! ## Every command and every step is answered (R241) -/

/-- A rejection and a reply alike are a response with the PHASE after the command, and neither takes a host action off
(00_scope.md R14, R232). -/
theorem exec_answers (i : Instr) (s : State) :
    ∃ t r, exec i s = .next t ∧ t.response = some r ∧ r.phase = t.phase ∧
      (r.err ≠ .ok → r.val = Config.params.failVal) ∧ t.host = s.host ∧ t.epoch = s.epoch := by
  cases hcheck : commandCheck i s with
  | some e => exact ⟨_, _, exec_of_check_failed hcheck, rfl, rfl, fun _ => rfl, rfl, rfl⟩
  | none =>
    exact ⟨_, _, exec_of_check_passed hcheck, rfl, rfl, fun herr => absurd rfl herr, commandEffect_host i s,
      commandEffect_epoch i s⟩

/-- A word is answered whether it is a command or illegal (30_encoding.md R76). -/
theorem performWord_answers (word : Word64) (s : State) : ∃ t, performWord exec word s = .next t := by
  cases hdecode : decode word with
  | ok i =>
    obtain ⟨t, r, hexec, -⟩ := exec_answers i s
    exact ⟨t, (performWord_of_decode_ok hdecode).trans hexec⟩
  | error x => exact ⟨_, performWord_of_decode_error hdecode⟩

theorem step_answers (s : State) : ∃ t, step s = .next t := by
  match hhost : s.host with
  | [] => exact ⟨s, step_of_host_nil hhost⟩
  | .rst _ :: rest => exact ⟨_, step_of_host_cons hhost⟩
  | .command word :: rest =>
    rw [step_of_host_cons hhost, perform]
    exact performWord_answers word _

/-- Settles O15: an accepted command answers its reply and a failed check its rejection, so a step always has an answer. -/
theorem everyCommandIsAnswered : Obligations.EveryCommandIsAnswered := ⟨step_answers, exec_answers⟩

/-! ## A rejection changes no state (R239) -/

/-- Settles O16: an answer with an error is no reply, so it is the rejection, which changes the response only. -/
theorem rejectionChangesNothing : Obligations.RejectionChangesNothing := by
  intro i s t r hexec hresponse herr
  rcases exec_cases hexec with ⟨e, -, rfl⟩ | ⟨-, v, rfl⟩
  · obtain rfl := Option.some.inj hresponse
    rfl
  · obtain rfl := Option.some.inj hresponse
    exact absurd rfl herr

/-! ## The idle block (R243) -/

/-- Settles O9: without an action of the host the step answers the state it began in. -/
theorem idleBlockKeepsItsState : Obligations.IdleBlockKeepsItsState := fun _ => step_of_host_nil

end Sys2Proof.Machine
end

section
/-! PROOFS of the statements about hardware reset (70_reset_and_hazards.md R260, 10_state.md R40): whatever the block was
doing, a step on `rst` is one hardware reset, after which the buffers are empty memories. -/

namespace Sys2Proof.Machine

/-! ## Hardware reset (R260) -/

/-- The command that `rst` abandons has no effect on the step (log 7). -/
theorem step_of_host_rst {s : State} {abandoned : Option Word64} {rest : List HostAction}
    (h : s.host = .rst abandoned :: rest) : step s = .next (State.hardReset { s with host := rest }) :=
  step_of_host_cons h

theorem Mem.written_nil {w : Nat} (k : Nat) : Mem.written ([] : Mem w) k = false := rfl

theorem State.hardReset_unwritten {cfg : Params} (s : State cfg) (k : Nat) :
    Mem.written s.hardReset.ibuf k = false ∧ Mem.written s.hardReset.pbuf k = false ∧
      Mem.written s.hardReset.obuf k = false := by
  rw [State.hardReset_ibuf, State.hardReset_pbuf, State.hardReset_obuf]
  exact ⟨Mem.written_nil k, Mem.written_nil k, Mem.written_nil k⟩

/-- Settles O8: the step is one hardware reset of the block with the host's action taken off. -/
theorem hardwareResetGivesResetState : Obligations.HardwareResetGivesResetState := by
  intro s abandoned rest hhost
  let taken : State := { s with host := rest }
  exact ⟨taken.hardReset, step_of_host_rst hhost, taken.initial_hardReset, taken.hardReset_phase,
    taken.hardReset_unwritten, taken.hardReset_response, taken.hardReset_host, taken.hardReset_epoch⟩

end Sys2Proof.Machine
end

section
/-! PROOFS about the fixed data of the model: words written out in the spec (95_test_vectors.md section 7), the state after
hardware reset (10_state.md R40) and the contents of the trellis ROM (41_trellis_rom.md R121). -/

namespace Sys2Proof

/-! ## Words of the spec -/

/-- A word is decoded by naming the command that it is the encoding of (R75). -/
theorem decode_of_encode_eq {i : Instr} {w : Word64} (hwf : i.wellFormed = true) (hw : encode i = w) :
    decode w = .ok i :=
  hw ▸ decodeOfEncodeIsIdentity i hwf

/-- Settles O1: the legal words are the encodings of their commands; LDP with a second bit in Y stops at the must-be-zero
check and opcode 0 at the last row of the command table. -/
theorem specWordsDecode : Obligations.SpecWordsDecode := by
  refine ⟨?rst, ?step, ?chb, ?decp, ?slc, ?rdt, ?ldi, ?ldp, ?notZero, ?noOpcode⟩
  case notZero | noOpcode => rfl
  all_goals exact decode_of_encode_eq (by decide) (by decide)

end Sys2Proof

namespace Sys2Proof.Machine

/-! ## The state after hardware reset -/

/-- Settles O12: the four memories are empty, and the metrics and history are those of the initial condition. -/
theorem resetMeetsInvariant : Obligations.ResetMeetsInvariant where
  hist_wf := Mem.wf_nil _
  ibuf_wf := Mem.wf_nil _
  pbuf_wf := Mem.wf_nil _
  obuf_wf := Mem.wf_nil _
  obuf_whole := .inl rfl
  reset_initial := fun _ => State.initial_reset

/-! ## The trellis ROM -/

/-- Settles O45: the table is a constant of eight entries, each compared with the closed form. -/
theorem romHoldsTheM17Table : Obligations.RomHoldsTheM17Table := by
  unfold Obligations.RomHoldsTheM17Table
  decide

end Sys2Proof.Machine
end
